-- ==== Sys2Proof/Word.lean ====
section
/-! DEFINITION. The widths of the FCE's data: plain names for bit vectors (spec 00_scope.md R10: every value is unsigned). -/

namespace Sys2Proof

/-- One octet of FBUF. -/
abbrev Byte := BitVec 8

/-- A 16-bit field: frame control, duration, sequence control, QoS control, ARG. -/
abbrev Half := BitVec 16

/-- A 32-bit register slot, bus datum or command word. -/
abbrev Word := BitVec 32

/-- A MAC address as the 48-bit value of R33: octet `k` on the wire is bits `8k+7..8k`. -/
abbrev Addr := BitVec 48

/-- The 64-bit Trigger common information of R38. -/
abbrev CommonInfo := BitVec 64

end Sys2Proof
end

