-- ==== Sys2Proof/Config.lean ====
section
/-! DEFINITION. What an implementation of the FCE fixes (spec 00_scope.md R8: the build parameters as one configuration record), and the one free value of the model, which has no body. -/

namespace Sys2Proof

/-- The parameter `UI_ORDER` of R8: the order in which TRG_ENCODE and UI_READ walk the table (R181). -/
inductive UiOrder where
  | insertion
  | aidAsc
deriving DecidableEq, Repr

/-- The implementation parameters of R8 together with `FCE_BASE` of R61. They never change while the machine runs (R23);
`State.cfg` holds them, so that a statement about every state holds for every value of them. -/
structure Params where
  /-- `BUF_SIZE`, octets in FBUF. -/
  bufSize : Nat
  /-- `UI_CAP`, entries in the UserInfo table. -/
  uiCap : Nat
  /-- `UI_ORDER`. -/
  uiOrder : UiOrder
  /-- `RECOG_MGMT`. -/
  recogMgmt : Half
  /-- `RECOG_CTRL`. -/
  recogCtrl : Half
  /-- `RECOG_DATA`. -/
  recogData : Half
  /-- `FCE_BASE`, the system address of the window (R61). -/
  fceBase : Nat
deriving DecidableEq, Repr

/-- The reference configuration: 92_eei_decisions.md "Open parameters", with UI_ORDER = INSERTION as the common
conditions of 95_test_vectors.md take it. DESIGN CHOICE, log 1: only `State.reset` uses it (unsafe for a statement about
that one state; every other statement ranges over all parameters). -/
def Config.reference : Params where
  bufSize := 2048
  uiCap := 32
  uiOrder := .insertion
  recogMgmt := 0x2533#16
  recogCtrl := 0x3B04#16
  recogData := 0x0101#16
  fceBase := 0

/-- FREE VALUE, log 2 (safe): the octet that reset number `epoch` left at FBUF address `a`. R251: "A model takes each
octet `FBUF[a]` as an arbitrary value chosen at reset, independently of every other octet, and constant until written." -/
opaque Config.fbufDraw (epoch a : Nat) : Byte

end Sys2Proof
end

