-- ==== Sys2Proof/Syntax.lean ====
section
/-! DEFINITION. The FCE's commands: one constructor per row of spec/opcode_table.json (spec 30_encoding.md R91). -/

namespace Sys2Proof

/-- A legal command word (R90, R91). The operand types admit exactly the operand values R91 calls legal, so every term
is well formed: an AID is 12 bits (ARG[15:12] is 0), a position is any 16-bit value, every other ARG is 0. -/
inductive Instr where
  /-- NOP, R142. -/
  | nop
  /-- HDR_SIZE, R143. -/
  | hdrSize
  /-- HDR_ENCODE, R144. -/
  | hdrEncode
  /-- HDR_DECODE, R145. -/
  | hdrDecode
  /-- ADDR_RESOLVE, R160. -/
  | addrResolve
  /-- HDR_CLEAR, R165. -/
  | hdrClear
  /-- UI_CLEAR, R183. -/
  | uiClear
  /-- UI_INSERT, R184. -/
  | uiInsert
  /-- UI_REMOVE, R186; the operand is ARG[11:0]. -/
  | uiRemove (aid : BitVec 12)
  /-- UI_LOOKUP, R190; the operand is ARG[11:0]. -/
  | uiLookup (aid : BitVec 12)
  /-- UI_READ, R192; the operand is ARG. -/
  | uiRead (pos : BitVec 16)
  /-- TRG_SIZE, R195. -/
  | trgSize
  /-- TRG_ENCODE, R197. -/
  | trgEncode
  /-- TRG_DECODE, R200. -/
  | trgDecode
deriving DecidableEq, Repr

end Sys2Proof
end

