-- ==== Sys2Proof/WellFormed.lean ====
section
/-! DEFINITION. Which command words are legal (spec 30_encoding.md R134, written from the table of R91 and not from the decoder) and which build parameters are (00_scope.md R8, R9). -/

namespace Sys2Proof

/-- R91: the OPC values that are assigned. -/
def opcAssigned (opc : Nat) : Bool :=
  opc ≤ 0x05 || (0x10 ≤ opc && opc ≤ 0x14) || (0x18 ≤ opc && opc ≤ 0x1A)

/-- R91, column "ARG legal values": an AID for UI_REMOVE and UI_LOOKUP, anything for UI_READ, 0 for the rest. -/
def argLegal (opc arg : Nat) : Bool :=
  if opc = 0x12 ∨ opc = 0x13 then arg < 0x1000 else if opc = 0x14 then true else arg = 0

/-- R134: a command word is legal when OPC is assigned, RSV is 0 and ARG has a legal value. -/
def legalWord (w : Word) : Bool :=
  opcAssigned (w.toNat % 0x100) && w.toNat / 0x100 % 0x100 == 0
    && argLegal (w.toNat % 0x100) (w.toNat / 0x10000)

/-- R8, R9: `BUF_SIZE` is 64..4096. -/
abbrev Params.bufSizeOk (p : Params) : Prop := 64 ≤ p.bufSize ∧ p.bufSize ≤ 4096

/-- R8, R9: `UI_CAP` is 1..255. -/
abbrev Params.uiCapOk (p : Params) : Prop := 1 ≤ p.uiCap ∧ p.uiCap ≤ 255

/-- R9: `RECOG_CTRL` may set only bits 2, 8, 9, 11, 12 and 13, that is, bits of `0x3B04`. -/
abbrev Params.recogCtrlOk (p : Params) : Prop := p.recogCtrl &&& 0x3B04#16 = p.recogCtrl

/-- The constraints of R8 and R9 on a build. -/
abbrev Params.WellFormed (p : Params) : Prop := p.bufSizeOk ∧ p.uiCapOk ∧ p.recogCtrlOk

end Sys2Proof
end

