-- ==== Sys2Proof/Decode.lean ====
section
/-! DEFINITION. The command word's encoding (spec 30_encoding.md R90, R91, R134): the decoder, total on every word and refusing by name, then the encoder. -/

namespace Sys2Proof

/-- Why a word is no command (the three cases of R134). The engine raises Error(BADCMD) for each. -/
inductive DecodeError where
  | unassignedOpc
  | reservedNotZero
  | illegalArg
deriving DecidableEq, Repr

/-- R90: OPC is bits 7..0 of a command word. -/
def cmdOpc (w : Word) : BitVec 8 := w.extractLsb' 0 8

/-- R90: RSV is bits 15..8 of a command word. -/
def cmdRsv (w : Word) : BitVec 8 := w.extractLsb' 8 8

/-- R90: ARG is bits 31..16 of a command word. -/
def cmdArg (w : Word) : BitVec 16 := w.extractLsb' 16 16

/-- A command whose ARG must be 0 (R91). -/
def noArg (i : Instr) (arg : BitVec 16) : Except DecodeError Instr :=
  if arg = 0#16 then .ok i else .error .illegalArg

/-- A command whose ARG is an AID: ARG[15:12] must be 0 (R91). -/
def aidArg (f : BitVec 12 → Instr) (arg : BitVec 16) : Except DecodeError Instr :=
  if arg.extractLsb' 12 4 = 0#4 then .ok (f (arg.extractLsb' 0 12)) else .error .illegalArg

/-- The opcode map of R91 for a word whose RSV is 0. -/
def decodeOpc (opc : Nat) (arg : BitVec 16) : Except DecodeError Instr :=
  match opc with
  | 0x00 => noArg .nop arg
  | 0x01 => noArg .hdrSize arg
  | 0x02 => noArg .hdrEncode arg
  | 0x03 => noArg .hdrDecode arg
  | 0x04 => noArg .addrResolve arg
  | 0x05 => noArg .hdrClear arg
  | 0x10 => noArg .uiClear arg
  | 0x11 => noArg .uiInsert arg
  | 0x12 => aidArg .uiRemove arg
  | 0x13 => aidArg .uiLookup arg
  | 0x14 => .ok (.uiRead arg)
  | 0x18 => noArg .trgSize arg
  | 0x19 => noArg .trgEncode arg
  | 0x1A => noArg .trgDecode arg
  | _ => .error .unassignedOpc

/-- R90, R91, R134: the command a word written to CMD encodes, or why it is illegal. -/
def decode (w : Word) : Except DecodeError Instr :=
  if cmdRsv w = 0#8 then decodeOpc (cmdOpc w).toNat (cmdArg w) else .error .reservedNotZero

/-- The host's reading of a table row: a command is one 32-bit write (R90), so the `nbits` low bits of `w` are the word
and the rest of it is 0. -/
def decodeTableWord (nbits w : Nat) : Option Instr :=
  (decode (BitVec.ofNat 32 (w % 2 ^ nbits))).toOption

/-- The mnemonics of R91, as the host assembler names them (R133). -/
inductive Mnemonic where
  | nop | hdrSize | hdrEncode | hdrDecode | addrResolve | hdrClear
  | uiClear | uiInsert | uiRemove | uiLookup | uiRead
  | trgSize | trgEncode | trgDecode
deriving DecidableEq, Repr

/-- The OPC column of R91. -/
def Mnemonic.opc : Mnemonic → BitVec 8
  | .nop => 0x00
  | .hdrSize => 0x01
  | .hdrEncode => 0x02
  | .hdrDecode => 0x03
  | .addrResolve => 0x04
  | .hdrClear => 0x05
  | .uiClear => 0x10
  | .uiInsert => 0x11
  | .uiRemove => 0x12
  | .uiLookup => 0x13
  | .uiRead => 0x14
  | .trgSize => 0x18
  | .trgEncode => 0x19
  | .trgDecode => 0x1A

/-- The mnemonic of a command. -/
def Instr.mnemonic : Instr → Mnemonic
  | .nop => .nop
  | .hdrSize => .hdrSize
  | .hdrEncode => .hdrEncode
  | .hdrDecode => .hdrDecode
  | .addrResolve => .addrResolve
  | .hdrClear => .hdrClear
  | .uiClear => .uiClear
  | .uiInsert => .uiInsert
  | .uiRemove _ => .uiRemove
  | .uiLookup _ => .uiLookup
  | .uiRead _ => .uiRead
  | .trgSize => .trgSize
  | .trgEncode => .trgEncode
  | .trgDecode => .trgDecode

/-- OPC of a command (R91). -/
def Instr.opc (i : Instr) : BitVec 8 := i.mnemonic.opc

/-- ARG of a command (R91). -/
def Instr.arg : Instr → BitVec 16
  | .uiRemove a => a.setWidth 16
  | .uiLookup a => a.setWidth 16
  | .uiRead k => k
  | .nop => 0
  | .hdrSize => 0
  | .hdrEncode => 0
  | .hdrDecode => 0
  | .addrResolve => 0
  | .hdrClear => 0
  | .uiClear => 0
  | .uiInsert => 0
  | .trgSize => 0
  | .trgEncode => 0
  | .trgDecode => 0

/-- R90: a command word is ARG, then eight 0 bits, then OPC. -/
def commandWord (opc : BitVec 8) (arg : BitVec 16) : Word := arg ++ 0#8 ++ opc

/-- The word of a command (R90, R91). -/
def encode (i : Instr) : Word := commandWord i.opc i.arg

end Sys2Proof
end

