-- ==== Sys2Proof/Machine/State.lean ====
section
/-! DEFINITION. The state of the FCE as plain data (spec 10_state.md), the host's side of it (20_memory.md R60, 00_scope.md R17), the reasons a run stops, and reset (70_reset_and_hazards.md R250). -/

namespace Sys2Proof.Machine

/-- The header register group (R31 to R36). An address is held once as its 48-bit value; the LO and HI registers of R33
are two views of it (log 10). -/
structure Hdr where
  /-- HDR_FC, R31. -/
  fc : Half
  /-- HDR_DUR, R32. -/
  dur : Half
  /-- HDR_A1_HI and HDR_A1_LO, R33. -/
  a1 : Addr
  /-- HDR_A2_HI and HDR_A2_LO, R33. -/
  a2 : Addr
  /-- HDR_A3_HI and HDR_A3_LO, R33. -/
  a3 : Addr
  /-- HDR_A4_HI and HDR_A4_LO, R33. -/
  a4 : Addr
  /-- HDR_SEQCTL, R34. -/
  seqctl : Half
  /-- HDR_QOSCTL, R35. -/
  qosctl : Half
  /-- HDR_HTC, R36. -/
  htc : Word
deriving DecidableEq, Repr

/-- All nine header fields 0: the reset value (R250) and what HDR_CLEAR writes (R165). -/
def Hdr.zero : Hdr := ⟨0, 0, 0, 0, 0, 0, 0, 0, 0⟩

/-- The address-resolution result registers (R37). -/
structure Resolved where
  /-- RES_VALID: bit 0 DA, 1 SA, 2 BSSID, 3 RA, 4 TA. -/
  valid : BitVec 5
  /-- RES_DA_HI and RES_DA_LO. -/
  da : Addr
  /-- RES_SA_HI and RES_SA_LO. -/
  sa : Addr
  /-- RES_BSSID_HI and RES_BSSID_LO. -/
  bssid : Addr
  /-- RES_RA_HI and RES_RA_LO. -/
  ra : Addr
  /-- RES_TA_HI and RES_TA_LO. -/
  ta : Addr
deriving DecidableEq, Repr

/-- The reset value of the RES_* registers (R250). -/
def Resolved.zero : Resolved := ⟨0, 0, 0, 0, 0, 0⟩

/-- A 64-bit entry `{W1, W0}` of the UserInfo table (R40). -/
structure UiEntry where
  w1 : Word
  w0 : Word
deriving DecidableEq, Repr

/-- FBUF as the octets written since the last reset: addresses strictly rising (`Memory.wf` in Machine/Ops.lean). An
address that is not listed holds no written octet; what the engine and the host read there is the free draw of R251
(`State.octet`; log 2). -/
abbrev Memory := List Host.Cell

/-- The kind of a host access (R60). -/
inductive AccessKind where
  | read
  | write
deriving DecidableEq, Repr

/-- The width of a host access in bits (R60). -/
inductive Width where
  | w8
  | w16
  | w32
deriving DecidableEq, Repr

/-- A host access as the tuple of R60: the offset is a 13-bit offset into the FCE's window, and a write of width w
uses `data[w-1:0]` (R64). -/
structure Access where
  kind : AccessKind
  offset : BitVec 13
  width : Width
  data : Word
deriving DecidableEq, Repr

/-- What the outside does next to the machine (R16): an access at a system address, which R61 turns into an offset, or
the reset event of R250, which lands only between accesses (R254). -/
inductive HostEvent where
  | bus (kind : AccessKind) (addr : Nat) (width : Width) (data : Word)
  | reset
deriving DecidableEq, Repr

/-- The fatal causes of R221. -/
inductive FatalCause where
  | addr4
  | hdrEnum
  | trgEnum
deriving DecidableEq, Repr

/-- What a command may raise (R12, R221): Malformed(SHORT, UNKNOWN, COUNT), Error(BOUNDS, CAPACITY, NOTFOUND, BADCMD,
REFUSED, NOTDATA) and Fatal(cause). A raise is no stop: it writes STATUS (R222) and the machine goes on. -/
inductive Raise where
  | short
  | unknown
  | count
  | bounds
  | capacity
  | notFound
  | badCmd
  | refused
  | notData
  | fatal (cause : FatalCause)
deriving DecidableEq, Repr

/-- The machine. -/
structure State where
  /-- The build parameters, shown by CAP0 to CAP2 (R8, R23); nothing writes them. -/
  cfg : Params
  /-- STATUS.ERR (R27). -/
  err : BitVec 4
  /-- STATUS.FATAL (R27, R226). -/
  fatal : Bool
  /-- STATUS.FCAUSE (R27). -/
  fcause : BitVec 4
  /-- STATUS.LAST_OPC (R27). -/
  lastOpc : BitVec 8
  /-- BUF_OFF (R28). -/
  bufOff : BitVec 12
  /-- IN_LEN (R29). -/
  inLen : BitVec 13
  /-- RESULT_LEN (R30). -/
  resultLen : BitVec 13
  /-- The HDR_* registers (R31 to R36). -/
  hdr : Hdr
  /-- The RES_* registers (R37). -/
  res : Resolved
  /-- TRG_CI_HI and TRG_CI_LO (R38). -/
  trgCi : CommonInfo
  /-- The valid entries of the UserInfo table in array order (R40); its length is UI_COUNT (R39). -/
  ui : List UiEntry
  /-- UI_POS (R39). -/
  uiPos : BitVec 8
  /-- UI_W0 (R41). -/
  uiW0 : Word
  /-- UI_W1 (R41). -/
  uiW1 : Word
  /-- FBUF (R42). -/
  fbuf : Memory
  /-- The model's own: which reset drew FBUF's free octets (R251; log 3). -/
  fbufEpoch : Nat
  /-- The model's own: what the host does next, oldest first (R60; log 4). -/
  host : List HostEvent
  /-- The model's own: the index of the host's next access (R60, R21; log 4). -/
  accessIndex : Nat
  /-- The model's own: the values the host's reads have returned, oldest first (R17; log 5). -/
  reads : List Word
deriving DecidableEq, Repr

/-- Why a run stops. -/
inductive Fault where
  /-- Raised by `step` on an illegal host access (R63), and by nothing else: "A model records a bus error as a fault of
  the host's run, named by the access index." The access changes no FCE state. Safe. -/
  | busError (access : Nat)
deriving DecidableEq, Repr

/-- Why an instruction has no meaning. No arm of `exec` answers with one: every command is modelled. -/
inductive Refusal where
  /-- An instruction of the opcode table without a meaning; raised by nothing in this model. Safe. -/
  | notModelled (mnemonic : String)
deriving DecidableEq, Repr

/-- The state after reset (R250) of the build `p`: every register 0, the table empty, no octet of FBUF written. `epoch`
names the reset that drew FBUF's contents. -/
def State.resetOf (p : Params) (epoch : Nat) : State where
  cfg := p
  err := 0
  fatal := false
  fcause := 0
  lastOpc := 0
  bufOff := 0
  inLen := 0
  resultLen := 0
  hdr := .zero
  res := .zero
  trgCi := 0
  ui := []
  uiPos := 0
  uiW0 := 0
  uiW1 := 0
  fbuf := []
  fbufEpoch := epoch
  host := []
  accessIndex := 0
  reads := []

/-- The machine right after reset (R250), in the reference configuration (DESIGN CHOICE, log 1) and with no host access
pending (log 4). -/
def State.reset : State := .resetOf Config.reference 0

end Sys2Proof.Machine
end

