-- ==== Sys2Proof/Machine/Flags.lean ====
section
/-! DEFINITION. The FCE's only flags: the STATUS fields (spec 10_state.md R27, R43) and their codes (60_exceptions.md R221). -/

namespace Sys2Proof.Machine

/-- The FCAUSE codes of R221. -/
def FatalCause.code : FatalCause → BitVec 4
  | .addr4 => 1
  | .hdrEnum => 2
  | .trgEnum => 3

/-- The ERR codes of R221. -/
def Raise.code : Raise → BitVec 4
  | .short => 1
  | .unknown => 2
  | .count => 3
  | .bounds => 4
  | .capacity => 5
  | .notFound => 6
  | .badCmd => 7
  | .refused => 8
  | .notData => 9
  | .fatal _ => 10

/-- The cause a Fatal outcome latches (R222, R226); the other outcomes latch none. -/
def Raise.cause : Raise → Option FatalCause
  | .fatal c => some c
  | .short => none
  | .unknown => none
  | .count => none
  | .bounds => none
  | .capacity => none
  | .notFound => none
  | .badCmd => none
  | .refused => none
  | .notData => none

/-- The STATUS register as the host reads it (R27): LAST_OPC [23:16], FCAUSE [15:12], FATAL [8], ERR [3:0]; every other
bit is reserved and reads 0 (R25). -/
def State.statusWord (s : State) : Word :=
  0#8 ++ s.lastOpc ++ s.fcause ++ 0#3 ++ BitVec.ofBool s.fatal ++ 0#4 ++ s.err

end Sys2Proof.Machine
end

