-- ==== Sys2Proof/Machine/Ops.lean ====
section
/-! DEFINITION. The named operations over FBUF and STATUS: reading and writing octets (spec 00_scope.md R11), completing and raising (60_exceptions.md R222), the prologue every command passes (R227), and reset, the one way out of Fatal (70_reset_and_hazards.md R250). -/

namespace Sys2Proof.Machine

/-- The octet written at an address since the last reset, if any. -/
def Memory.read? : Memory → Nat → Option Byte
  | [], _ => none
  | (k, b) :: m, a => if a = k then some b else Memory.read? m a

/-- Write one octet, keeping the addresses strictly rising. -/
def Memory.write : Memory → Nat → Byte → Memory
  | [], a, b => [(a, b)]
  | (k, c) :: m, a, b =>
    if a < k then (a, b) :: (k, c) :: m
    else if a = k then (a, b) :: m
    else (k, c) :: Memory.write m a b

/-- Write octets at rising addresses from `a`. -/
def Memory.writeOctets : Memory → Nat → List Byte → Memory
  | m, _, [] => m
  | m, a, b :: bs => Memory.writeOctets (Memory.write m a b) (a + 1) bs

/-- The canonical form: addresses strictly rising. An unlisted address holds no written octet, so no entry can equal
what an unlisted address holds (log 2). -/
abbrev Memory.wf (m : Memory) : Prop := (m.map Prod.fst).Pairwise (· < ·)

/-- `FBUF[a]` (R11, R42): the octet last written there since reset, else the free draw of R251. -/
def State.octet (s : State) (a : Nat) : Byte :=
  (Memory.read? s.fbuf a).getD (Config.fbufDraw s.fbufEpoch a)

/-- `Octets(a, n)` of R11. -/
def State.octets (s : State) : Nat → Nat → List Byte
  | _, 0 => []
  | a, n + 1 => s.octet a :: s.octets (a + 1) n

/-- The unsigned integer of an octet sequence, least-significant octet first (R92). -/
def ofOctets : List Byte → Nat
  | [] => 0
  | b :: bs => b.toNat + 256 * ofOctets bs

/-- The `n` low octets of an integer, least-significant octet first (R92). -/
def toOctets : Nat → Nat → List Byte
  | 0, _ => []
  | n + 1, v => BitVec.ofNat 8 v :: toOctets n (v / 256)

/-- `MemRead(a, n)` of R11. -/
def State.memRead (s : State) (a n : Nat) : Nat := ofOctets (s.octets a n)

/-- Write an octet sequence into FBUF from address `a`. -/
def State.writeOctets (s : State) (a : Nat) (bs : List Byte) : State :=
  { s with fbuf := Memory.writeOctets s.fbuf a bs }

/-- `MemWrite(a, n, v)` of R11. -/
def State.memWrite (s : State) (a n v : Nat) : State := s.writeOctets a (toOctets n v)

/-- Ending without a raise (R12, R222): ERR is OK and RESULT_LEN the command's length, or 0. -/
def complete (len : Nat) (s : State) : State :=
  { s with err := 0, resultLen := BitVec.ofNat 13 len }

/-- Entering an outcome other than complete, the FCE's only exception (R230): exactly the STATUS write of R222, with
RESULT_LEN 0. A Fatal outcome also latches FATAL and its cause (R226). -/
def raise (r : Raise) (s : State) : State :=
  match r.cause with
  | some c => { s with err := r.code, fatal := true, fcause := c.code, resultLen := 0 }
  | none => { s with err := r.code, resultLen := 0 }

/-- LAST_OPC written (R227): the first thing every command word does. -/
def State.withLastOpc (s : State) (opc : BitVec 8) : State := { s with lastOpc := opc }

/-- What a command does after the prologue: it raises, or it answers the state with its results written and the length
for RESULT_LEN. A raise answers no state, so a raising command has written nothing (R13, R225). -/
abbrev Body := State → Except Raise (State × Nat)

/-- The prologue of R227 for a word whose OPC is `opc`, then the command's own body. R227 and D26 refuse every command
under FATAL, UI_READ too, while R237 says the table stays readable through UI_READ after a Fatal outcome: DESIGN CHOICE,
log 16, R227 is followed and UI_READ is refused (unsafe for a claim about UI_READ under FATAL). -/
def runCommand (opc : BitVec 8) (body : Body) (s : State) : State :=
  if s.fatal then raise .refused (s.withLastOpc opc)
  else
    match body (s.withLastOpc opc) with
    | .ok (s', len) => complete len s'
    | .error r => raise r (s.withLastOpc opc)

/-- A write of an illegal word to CMD (R134, R227): the prologue ends it with REFUSED or BADCMD. -/
def illegalCommand (w : Word) (s : State) : State :=
  runCommand (cmdOpc w) (fun _ => .error .badCmd) s

/-- The reset event (R250, R251, R254): every register at its reset value and fresh free draws for FBUF. The build
parameters stay (R23); the host's own side (what it does next, its numbering, what it has read) is not the FCE's (log 4). -/
def resetEvent (s : State) : State :=
  { State.resetOf s.cfg (s.fbufEpoch + 1) with
    host := s.host, accessIndex := s.accessIndex, reads := s.reads }

end Sys2Proof.Machine
end

