-- ==== Sys2Proof/Machine/Operands.lean ====
section
/-! DEFINITION. What commands and host accesses operate on: the frame control bits, the header layout and the header registers (spec 30_encoding.md R95 to R113, 40_header_codec.md R140), the register window (10_state.md R22 to R41), the Trigger type and the UserInfo record (30_encoding.md R121 to R130), and the UserInfo table (10_state.md R40, 41_trigger_codec.md R181, R182). -/

namespace Sys2Proof.Machine

/-! ### Frame control (R95) -/

/-- PV, FC[1:0]. -/
def fcPv (fc : Half) : BitVec 2 := fc.extractLsb' 0 2

/-- TYPE, FC[3:2]. -/
def fcType (fc : Half) : BitVec 2 := fc.extractLsb' 2 2

/-- SUBTYPE, FC[7:4]. -/
def fcSubtype (fc : Half) : BitVec 4 := fc.extractLsb' 4 4

/-- TODS, FC[8]. -/
def fcToDs (fc : Half) : Bool := fc.getLsbD 8

/-- FROMDS, FC[9]. -/
def fcFromDs (fc : Half) : Bool := fc.getLsbD 9

/-- MOREFRAG, FC[10]. -/
def fcMoreFrag (fc : Half) : Bool := fc.getLsbD 10

/-- RETRY, FC[11]. -/
def fcRetry (fc : Half) : Bool := fc.getLsbD 11

/-- PWRMGT, FC[12]. -/
def fcPwrMgt (fc : Half) : Bool := fc.getLsbD 12

/-- MOREDATA, FC[13]. -/
def fcMoreData (fc : Half) : Bool := fc.getLsbD 13

/-- PROTECTED, FC[14]. -/
def fcProtected (fc : Half) : Bool := fc.getLsbD 14

/-- ORDER, FC[15]. -/
def fcOrder (fc : Half) : Bool := fc.getLsbD 15

/-- R97: a frame control value is recognized when the bit SUBTYPE of the mask of its class is set; TYPE 3 is never
recognized (R96). -/
def recognized (p : Params) (fc : Half) : Bool :=
  (fcType fc == 0 && p.recogMgmt.getLsbD (fcSubtype fc).toNat)
    || (fcType fc == 1 && p.recogCtrl.getLsbD (fcSubtype fc).toNat)
    || (fcType fc == 2 && p.recogData.getLsbD (fcSubtype fc).toNat)

/-- `IsData` of R104. -/
def isData (fc : Half) : Bool := fcType fc == 2

/-- `Has4` of R104: ToDS and FromDS of a data frame. -/
def has4 (fc : Half) : Bool := isData fc && fcToDs fc && fcFromDs fc

/-- `HasQoS` of R104: subtype bit 0x08 of a data frame. -/
def hasQos (fc : Half) : Bool := isData fc && fc.getLsbD 7

/-- `HasHTC` of R104: the Order bit of a QoS data frame. -/
def hasHtc (fc : Half) : Bool := hasQos fc && fcOrder fc

/-- `Short` of R104: CTS and ACK. -/
def isShort (fc : Half) : Bool := fcType fc == 1 && (fcSubtype fc == 12 || fcSubtype fc == 13)

/-! ### Header fields and layout (R103, R104) -/

/-- The nine header fields (R140). -/
inductive HdrField where
  | fc | dur | a1 | a2 | a3 | a4 | seq | qos | htc
deriving DecidableEq, Repr

/-- One element of a layout: a field, its wire offset and its width in octets (R104). -/
structure FieldAt where
  field : HdrField
  off : Nat
  width : Nat
deriving DecidableEq, Repr

/-- `Layout(fc)` of R104. -/
def layout (fc : Half) : List FieldAt :=
  [⟨.fc, 0, 2⟩, ⟨.dur, 2, 2⟩, ⟨.a1, 4, 6⟩]
    ++ (if isShort fc then [] else [⟨.a2, 10, 6⟩])
    ++ (if fcType fc = 0 ∨ fcType fc = 2 then [⟨.a3, 16, 6⟩, ⟨.seq, 22, 2⟩] else [])
    ++ (if has4 fc then [⟨.a4, 24, 6⟩] else [])
    ++ (if hasQos fc then [⟨.qos, 24 + 6 * (has4 fc).toNat, 2⟩] else [])
    ++ (if hasHtc fc then [⟨.htc, 26 + 6 * (has4 fc).toNat, 4⟩] else [])

/-- `HdrSize(fc)` of R104. It is used only on recognized values; R104 gives no size for TYPE 3, where this function takes
its last line (log 8). -/
def hdrSize (fc : Half) : Nat :=
  if fcType fc = 0 then 24
  else if isShort fc then 10
  else if fcType fc = 1 then 16
  else 24 + 6 * (has4 fc).toNat + 2 * (hasQos fc).toNat + 4 * (hasHtc fc).toNat

/-- `Reg(f)` of R140, read. -/
def Hdr.get (h : Hdr) : HdrField → Nat
  | .fc => h.fc.toNat
  | .dur => h.dur.toNat
  | .a1 => h.a1.toNat
  | .a2 => h.a2.toNat
  | .a3 => h.a3.toNat
  | .a4 => h.a4.toNat
  | .seq => h.seqctl.toNat
  | .qos => h.qosctl.toNat
  | .htc => h.htc.toNat

/-- `Reg(f) <- v` of R140. -/
def Hdr.set (h : Hdr) (f : HdrField) (v : Nat) : Hdr :=
  match f with
  | .fc => { h with fc := BitVec.ofNat 16 v }
  | .dur => { h with dur := BitVec.ofNat 16 v }
  | .a1 => { h with a1 := BitVec.ofNat 48 v }
  | .a2 => { h with a2 := BitVec.ofNat 48 v }
  | .a3 => { h with a3 := BitVec.ofNat 48 v }
  | .a4 => { h with a4 := BitVec.ofNat 48 v }
  | .seq => { h with seqctl := BitVec.ofNat 16 v }
  | .qos => { h with qosctl := BitVec.ofNat 16 v }
  | .htc => { h with htc := BitVec.ofNat 32 v }

/-- Whether a field belongs to the layout of a frame control value (R104). -/
def present (fc : Half) (f : HdrField) : Bool := (layout fc).any (fun e => e.field == f)

/-- Every field of `fs` written to FBUF from the header registers of `h`, the frame starting at `o` (the loop of R144). -/
def State.writeFields (s : State) (o : Nat) (h : Hdr) : List FieldAt → State
  | [] => s
  | f :: fs => (s.memWrite (o + f.off) f.width (h.get f.field)).writeFields o h fs

/-- Every field of `fs` read from FBUF into `h`, the frame starting at `o` (the second loop of R145). -/
def State.readFields (s : State) (o : Nat) (h : Hdr) : List FieldAt → Hdr
  | [] => h
  | f :: fs => s.readFields o (h.set f.field (s.memRead (o + f.off) f.width)) fs

/-! ### Subfields the codec carries without interpreting them -/

/-- The fragment number, SEQCTL[3:0] (R34, R110). -/
def seqFrag (v : Half) : BitVec 4 := v.extractLsb' 0 4

/-- The sequence number, SEQCTL[15:4] (R34, R110). -/
def seqNumber (v : Half) : BitVec 12 := v.extractLsb' 4 12

/-- TID, QOSCTL[3:0] (R35, R111). -/
def qosTid (v : Half) : BitVec 4 := v.extractLsb' 0 4

/-- EOSP, QOSCTL[4]. -/
def qosEosp (v : Half) : Bool := v.getLsbD 4

/-- ACKPOL, QOSCTL[6:5]. -/
def qosAckPol (v : Half) : BitVec 2 := v.extractLsb' 5 2

/-- AMSDU, QOSCTL[7]. -/
def qosAmsdu (v : Half) : Bool := v.getLsbD 7

/-- TXOP limit or queue size, QOSCTL[15:8]. -/
def qosTxop (v : Half) : BitVec 8 := v.extractLsb' 8 8

/-! ### Trigger type and UserInfo records -/

/-- The four recognized trigger variants (R122). -/
inductive TrgType where
  | basic
  | muBar
  | muRts
  | bsrp
deriving DecidableEq, Repr

/-- R122: the variant a selector `CI[3:0]` names; a selector that is not recognized names none. -/
def TrgType.ofSelector (t : BitVec 4) : Option TrgType :=
  if t = 0 then some .basic
  else if t = 2 then some .muBar
  else if t = 3 then some .muRts
  else if t = 4 then some .bsrp
  else none

/-- The selector `CI[3:0]` (R38, R122). -/
def ciSelector (ci : CommonInfo) : BitVec 4 := ci.extractLsb' 0 4

/-- `RecSize` of R123, in octets. -/
def recSize : TrgType → Nat
  | .basic => 6
  | .muBar => 7
  | .muRts => 5
  | .bsrp => 5

/-- `TrgSize(type, n)` of R121. -/
def trgSizeOf (t : TrgType) (n : Nat) : Nat := 9 + n * recSize t

/-- AID12, W0[11:0]: the key of an entry (R127). -/
def UiEntry.aid (e : UiEntry) : BitVec 12 := e.w0.extractLsb' 0 12

/-- RU, W0[19:12]. -/
def UiEntry.ru (e : UiEntry) : BitVec 8 := e.w0.extractLsb' 12 8

/-- CODING, W0[20]. -/
def UiEntry.coding (e : UiEntry) : Bool := e.w0.getLsbD 20

/-- MCS, W0[24:21]. -/
def UiEntry.mcs (e : UiEntry) : BitVec 4 := e.w0.extractLsb' 21 4

/-- DCM, W0[25]. -/
def UiEntry.dcm (e : UiEntry) : Bool := e.w0.getLsbD 25

/-- SS, W0[31:26]. -/
def UiEntry.ss (e : UiEntry) : BitVec 6 := e.w0.extractLsb' 26 6

/-- URSVD, W1[7:0]. -/
def UiEntry.ursvd (e : UiEntry) : BitVec 8 := e.w1.extractLsb' 0 8

/-- The extra octet of a Basic Trigger record, W1[15:8] (R128). -/
def UiEntry.basicExtra (e : UiEntry) : BitVec 8 := e.w1.extractLsb' 8 8

/-- SPACING, W1[9:8] (R128). -/
def UiEntry.spacing (e : UiEntry) : BitVec 2 := e.w1.extractLsb' 8 2

/-- TIDAGG, W1[12:10] (R128). -/
def UiEntry.tidAgg (e : UiEntry) : BitVec 3 := e.w1.extractLsb' 10 3

/-- BRSVD, W1[15:13] (R128). -/
def UiEntry.brsvd (e : UiEntry) : BitVec 3 := e.w1.extractLsb' 13 3

/-- BARCTL, W1[31:16], the two extra octets of an MU-BAR record (R128). -/
def UiEntry.barCtl (e : UiEntry) : BitVec 16 := e.w1.extractLsb' 16 16

/-- `Serialize` of R129, as an integer of `recSize t` octets; what the variant does not carry is dropped. -/
def serialize (e : UiEntry) (t : TrgType) : Nat :=
  e.w0.toNat + 2 ^ 32 * e.ursvd.toNat
    + match t with
      | .basic => 2 ^ 40 * e.basicExtra.toNat
      | .muBar => 2 ^ 40 * e.barCtl.toNat
      | .muRts => 0
      | .bsrp => 0

/-- `Parse` of R129 on a record read as an integer; what the variant does not carry is 0. -/
def parse (rec : Nat) (t : TrgType) : UiEntry :=
  let r : BitVec 56 := BitVec.ofNat 56 rec
  let w0 : Word := r.extractLsb' 0 32
  let ursvd : BitVec 8 := r.extractLsb' 32 8
  match t with
  | .basic => ⟨0#16 ++ r.extractLsb' 40 8 ++ ursvd, w0⟩
  | .muBar => ⟨r.extractLsb' 40 16 ++ 0#8 ++ ursvd, w0⟩
  | .muRts => ⟨0#24 ++ ursvd, w0⟩
  | .bsrp => ⟨0#24 ++ ursvd, w0⟩

/-! ### The UserInfo table -/

/-- `UI_COUNT` (R39): the number of valid entries. -/
def State.uiCount (s : State) : Nat := s.ui.length

/-- `FindAID(a)` of R182. -/
def findAid (l : List UiEntry) (a : BitVec 12) : Option Nat := l.findIdx? (fun e => e.aid == a)

/-- `SerialList()` of R181. -/
def serialList (o : UiOrder) (l : List UiEntry) : List UiEntry :=
  match o with
  | .insertion => l
  | .aidAsc => l.insertionSort (fun a b => a.aid.toNat ≤ b.aid.toNat)

/-- The serialization order of the state's table (R181). -/
def State.serial (s : State) : List UiEntry := serialList s.cfg.uiOrder s.ui

/-- `SerialPos` of R182: the position of an entry of the table in the serialization order. -/
def State.serialPos (s : State) (e : UiEntry) : Nat := s.serial.findIdx (fun x => x.aid == e.aid)

/-- The staging pair as an entry `{UI_W1, UI_W0}` (R41). -/
def State.staged (s : State) : UiEntry := ⟨s.uiW1, s.uiW0⟩

/-! ### The register window (R24) -/

/-- The registers of R24. -/
inductive RegName where
  | id | cap0 | cap1 | cap2 | cmd | status | bufOff | inLen | resultLen
  | hdrFc | hdrDur | hdrA1Lo | hdrA1Hi | hdrA2Lo | hdrA2Hi | hdrA3Lo | hdrA3Hi | hdrA4Lo | hdrA4Hi
  | hdrSeqctl | hdrQosctl | hdrHtc
  | resValid | resDaLo | resDaHi | resSaLo | resSaHi | resBssidLo | resBssidHi
  | resRaLo | resRaHi | resTaLo | resTaHi
  | trgCiLo | trgCiHi | uiCount | uiPos | uiW0 | uiW1
deriving DecidableEq, Repr

/-- The offset column of R24. -/
def RegName.offset : RegName → Nat
  | .id => 0x000
  | .cap0 => 0x004
  | .cap1 => 0x008
  | .cap2 => 0x00C
  | .cmd => 0x010
  | .status => 0x014
  | .bufOff => 0x018
  | .inLen => 0x01C
  | .resultLen => 0x020
  | .hdrFc => 0x040
  | .hdrDur => 0x044
  | .hdrA1Lo => 0x048
  | .hdrA1Hi => 0x04C
  | .hdrA2Lo => 0x050
  | .hdrA2Hi => 0x054
  | .hdrA3Lo => 0x058
  | .hdrA3Hi => 0x05C
  | .hdrA4Lo => 0x060
  | .hdrA4Hi => 0x064
  | .hdrSeqctl => 0x068
  | .hdrQosctl => 0x06C
  | .hdrHtc => 0x070
  | .resValid => 0x080
  | .resDaLo => 0x084
  | .resDaHi => 0x088
  | .resSaLo => 0x08C
  | .resSaHi => 0x090
  | .resBssidLo => 0x094
  | .resBssidHi => 0x098
  | .resRaLo => 0x09C
  | .resRaHi => 0x0A0
  | .resTaLo => 0x0A4
  | .resTaHi => 0x0A8
  | .trgCiLo => 0x100
  | .trgCiHi => 0x104
  | .uiCount => 0x108
  | .uiPos => 0x10C
  | .uiW0 => 0x110
  | .uiW1 => 0x114

/-- Every register of R24, in the order of its table. -/
def RegName.all : List RegName :=
  [.id, .cap0, .cap1, .cap2, .cmd, .status, .bufOff, .inLen, .resultLen,
    .hdrFc, .hdrDur, .hdrA1Lo, .hdrA1Hi, .hdrA2Lo, .hdrA2Hi, .hdrA3Lo, .hdrA3Hi, .hdrA4Lo, .hdrA4Hi,
    .hdrSeqctl, .hdrQosctl, .hdrHtc,
    .resValid, .resDaLo, .resDaHi, .resSaLo, .resSaHi, .resBssidLo, .resBssidHi,
    .resRaLo, .resRaHi, .resTaLo, .resTaHi,
    .trgCiLo, .trgCiHi, .uiCount, .uiPos, .uiW0, .uiW1]

/-- The register at an offset of the register window; any other offset is unmapped (R24). -/
def RegName.ofOffset (off : Nat) : Option RegName := RegName.all.find? (fun r => r.offset == off)

/-- The access column of R24. -/
inductive RegAccess where
  | ro
  | rw
  | wo
deriving DecidableEq, Repr

/-- The access column of R24. -/
def RegName.access : RegName → RegAccess
  | .cmd => .wo
  | .bufOff => .rw
  | .inLen => .rw
  | .hdrFc => .rw
  | .hdrDur => .rw
  | .hdrA1Lo => .rw
  | .hdrA1Hi => .rw
  | .hdrA2Lo => .rw
  | .hdrA2Hi => .rw
  | .hdrA3Lo => .rw
  | .hdrA3Hi => .rw
  | .hdrA4Lo => .rw
  | .hdrA4Hi => .rw
  | .hdrSeqctl => .rw
  | .hdrQosctl => .rw
  | .hdrHtc => .rw
  | .trgCiLo => .rw
  | .trgCiHi => .rw
  | .uiW0 => .rw
  | .uiW1 => .rw
  | .id => .ro
  | .cap0 => .ro
  | .cap1 => .ro
  | .cap2 => .ro
  | .status => .ro
  | .resultLen => .ro
  | .resValid => .ro
  | .resDaLo => .ro
  | .resDaHi => .ro
  | .resSaLo => .ro
  | .resSaHi => .ro
  | .resBssidLo => .ro
  | .resBssidHi => .ro
  | .resRaLo => .ro
  | .resRaHi => .ro
  | .resTaLo => .ro
  | .resTaHi => .ro
  | .uiCount => .ro
  | .uiPos => .ro

/-- The bits column of R24: the implemented bits; every other bit is reserved. -/
def RegName.mask : RegName → Word
  | .id => 0xFFFFFFFF
  | .cap0 => 0xFFFFFFFF
  | .cap1 => 0x01FFFFFF
  | .cap2 => 0x00001FFF
  | .cmd => 0xFFFFFFFF
  | .status => 0x00FFF10F
  | .bufOff => 0x00000FFF
  | .inLen => 0x00001FFF
  | .resultLen => 0x00001FFF
  | .hdrFc => 0x0000FFFF
  | .hdrDur => 0x0000FFFF
  | .hdrA1Lo => 0xFFFFFFFF
  | .hdrA1Hi => 0x0000FFFF
  | .hdrA2Lo => 0xFFFFFFFF
  | .hdrA2Hi => 0x0000FFFF
  | .hdrA3Lo => 0xFFFFFFFF
  | .hdrA3Hi => 0x0000FFFF
  | .hdrA4Lo => 0xFFFFFFFF
  | .hdrA4Hi => 0x0000FFFF
  | .hdrSeqctl => 0x0000FFFF
  | .hdrQosctl => 0x0000FFFF
  | .hdrHtc => 0xFFFFFFFF
  | .resValid => 0x0000001F
  | .resDaLo => 0xFFFFFFFF
  | .resDaHi => 0x0000FFFF
  | .resSaLo => 0xFFFFFFFF
  | .resSaHi => 0x0000FFFF
  | .resBssidLo => 0xFFFFFFFF
  | .resBssidHi => 0x0000FFFF
  | .resRaLo => 0xFFFFFFFF
  | .resRaHi => 0x0000FFFF
  | .resTaLo => 0xFFFFFFFF
  | .resTaHi => 0x0000FFFF
  | .trgCiLo => 0xFFFFFFFF
  | .trgCiHi => 0xFFFFFFFF
  | .uiCount => 0x000000FF
  | .uiPos => 0x000000FF
  | .uiW0 => 0xFFFFFFFF
  | .uiW1 => 0xFFFFFFFF

/-- The LO register of a 48-bit address (R33). -/
def addrLo (a : Addr) : Word := a.extractLsb' 0 32

/-- The HI register of a 48-bit address, as a 32-bit slot (R33). -/
def addrHi (a : Addr) : Word := (a.extractLsb' 32 16).setWidth 32

/-- A 48-bit address with its LO register written. -/
def addrWithLo (a : Addr) (v : Word) : Addr := (a.extractLsb' 32 16 ++ v : BitVec (16 + 32))

/-- A 48-bit address with its HI register written: only bits [15:0] are implemented. -/
def addrWithHi (a : Addr) (v : Word) : Addr :=
  (v.extractLsb' 0 16 ++ a.extractLsb' 0 32 : BitVec (16 + 32))

/-- What a 32-bit read of a register returns (R22 to R41, R25): reserved bits and CMD read 0. -/
def State.readReg (s : State) : RegName → Word
  | .id => 0x46434501#32
  | .cap0 => s.cfg.recogCtrl ++ s.cfg.recogMgmt
  | .cap1 => 0#7 ++ BitVec.ofBool (s.cfg.uiOrder == .aidAsc) ++ BitVec.ofNat 8 s.cfg.uiCap ++ s.cfg.recogData
  | .cap2 => 0#19 ++ BitVec.ofNat 13 s.cfg.bufSize
  | .cmd => 0
  | .status => s.statusWord
  | .bufOff => s.bufOff.setWidth 32
  | .inLen => s.inLen.setWidth 32
  | .resultLen => s.resultLen.setWidth 32
  | .hdrFc => s.hdr.fc.setWidth 32
  | .hdrDur => s.hdr.dur.setWidth 32
  | .hdrA1Lo => addrLo s.hdr.a1
  | .hdrA1Hi => addrHi s.hdr.a1
  | .hdrA2Lo => addrLo s.hdr.a2
  | .hdrA2Hi => addrHi s.hdr.a2
  | .hdrA3Lo => addrLo s.hdr.a3
  | .hdrA3Hi => addrHi s.hdr.a3
  | .hdrA4Lo => addrLo s.hdr.a4
  | .hdrA4Hi => addrHi s.hdr.a4
  | .hdrSeqctl => s.hdr.seqctl.setWidth 32
  | .hdrQosctl => s.hdr.qosctl.setWidth 32
  | .hdrHtc => s.hdr.htc
  | .resValid => s.res.valid.setWidth 32
  | .resDaLo => addrLo s.res.da
  | .resDaHi => addrHi s.res.da
  | .resSaLo => addrLo s.res.sa
  | .resSaHi => addrHi s.res.sa
  | .resBssidLo => addrLo s.res.bssid
  | .resBssidHi => addrHi s.res.bssid
  | .resRaLo => addrLo s.res.ra
  | .resRaHi => addrHi s.res.ra
  | .resTaLo => addrLo s.res.ta
  | .resTaHi => addrHi s.res.ta
  | .trgCiLo => s.trgCi.extractLsb' 0 32
  | .trgCiHi => s.trgCi.extractLsb' 32 32
  | .uiCount => (BitVec.ofNat 8 s.uiCount).setWidth 32
  | .uiPos => s.uiPos.setWidth 32
  | .uiW0 => s.uiW0
  | .uiW1 => s.uiW1

/-- What a 32-bit write to a register does to it (R25): an RW register takes its implemented bits, an RO register keeps
its value. A write to CMD holds nothing (R26); the command it starts is `Machine/Bus.lean`'s and `step`'s. -/
def State.writeReg (s : State) (r : RegName) (v : Word) : State :=
  match r with
  | .bufOff => { s with bufOff := v.extractLsb' 0 12 }
  | .inLen => { s with inLen := v.extractLsb' 0 13 }
  | .hdrFc => { s with hdr := { s.hdr with fc := v.extractLsb' 0 16 } }
  | .hdrDur => { s with hdr := { s.hdr with dur := v.extractLsb' 0 16 } }
  | .hdrA1Lo => { s with hdr := { s.hdr with a1 := addrWithLo s.hdr.a1 v } }
  | .hdrA1Hi => { s with hdr := { s.hdr with a1 := addrWithHi s.hdr.a1 v } }
  | .hdrA2Lo => { s with hdr := { s.hdr with a2 := addrWithLo s.hdr.a2 v } }
  | .hdrA2Hi => { s with hdr := { s.hdr with a2 := addrWithHi s.hdr.a2 v } }
  | .hdrA3Lo => { s with hdr := { s.hdr with a3 := addrWithLo s.hdr.a3 v } }
  | .hdrA3Hi => { s with hdr := { s.hdr with a3 := addrWithHi s.hdr.a3 v } }
  | .hdrA4Lo => { s with hdr := { s.hdr with a4 := addrWithLo s.hdr.a4 v } }
  | .hdrA4Hi => { s with hdr := { s.hdr with a4 := addrWithHi s.hdr.a4 v } }
  | .hdrSeqctl => { s with hdr := { s.hdr with seqctl := v.extractLsb' 0 16 } }
  | .hdrQosctl => { s with hdr := { s.hdr with qosctl := v.extractLsb' 0 16 } }
  | .hdrHtc => { s with hdr := { s.hdr with htc := v } }
  | .trgCiLo => { s with trgCi := (s.trgCi.extractLsb' 32 32 ++ v : BitVec (32 + 32)) }
  | .trgCiHi => { s with trgCi := (v ++ s.trgCi.extractLsb' 0 32 : BitVec (32 + 32)) }
  | .uiW0 => { s with uiW0 := v }
  | .uiW1 => { s with uiW1 := v }
  | .id => s
  | .cap0 => s
  | .cap1 => s
  | .cap2 => s
  | .cmd => s
  | .status => s
  | .resultLen => s
  | .resValid => s
  | .resDaLo => s
  | .resDaHi => s
  | .resSaLo => s
  | .resSaHi => s
  | .resBssidLo => s
  | .resBssidHi => s
  | .resRaLo => s
  | .resRaHi => s
  | .resTaLo => s
  | .resTaHi => s
  | .uiCount => s
  | .uiPos => s

end Sys2Proof.Machine
end

