-- ==== Sys2Proof/Machine/Bus.lean ====
section
/-! DEFINITION. The host's accesses (spec 20_memory.md R60 to R66): which are legal, what a read returns, what a write does, and the next host event. A legal write to CMD is handed to `step` as a command. -/

namespace Sys2Proof.Machine

/-- The width of an access in octets (R64). -/
def Width.octets : Width → Nat
  | .w8 => 1
  | .w16 => 2
  | .w32 => 4

/-- What a legal access reaches (R61). -/
inductive Target where
  | reg (r : RegName)
  | buf (a : Nat)
deriving DecidableEq, Repr

/-- R62, R64: what a legal access reaches; any other access is a bus error (R63). -/
def target (p : Params) (off : BitVec 13) (w : Width) : Option Target :=
  if off.toNat < 0x1000 then
    if w = .w32 ∧ off.toNat % 4 = 0 then (RegName.ofOffset off.toNat).map .reg else none
  else if (off.toNat - 0x1000) % w.octets = 0 ∧ off.toNat - 0x1000 + w.octets ≤ p.bufSize then
    some (.buf (off.toNat - 0x1000))
  else none

/-- R61: the window offset of a system address, if it lies in the window. -/
def windowOffset (p : Params) (addr : Nat) : Option (BitVec 13) :=
  if p.fceBase ≤ addr ∧ addr < p.fceBase + 0x2000 then some (BitVec.ofNat 13 (addr - p.fceBase)) else none

/-- What a legal read returns (R62, R64), as a 32-bit value (log 5). -/
def State.readTarget (s : State) (t : Target) (w : Width) : Word :=
  match t with
  | .reg r => s.readReg r
  | .buf a => BitVec.ofNat 32 (s.memRead a w.octets)

/-- What a legal write does at its target (R25, R64): in the buffer window `MemWrite(a, w, data[8w-1:0])`. -/
def State.writeTarget (s : State) (t : Target) (w : Width) (data : Word) : State :=
  match t with
  | .reg r => s.writeReg r data
  | .buf a => s.memWrite a w.octets data.toNat

/-- How the machine answers the host: served, a command to run, or a bus error at an access index. -/
inductive Served where
  | done (s : State)
  | command (w : Word) (s : State)
  | busError (access : Nat)
deriving DecidableEq, Repr

/-- One access (R60, R62 to R64, R66). -/
def serveAccess (a : Access) (s : State) : Served :=
  match target s.cfg a.offset a.width with
  | none => .busError s.accessIndex
  | some t =>
    match a.kind with
    | .read =>
      .done { s with accessIndex := s.accessIndex + 1, reads := s.reads ++ [s.readTarget t a.width] }
    | .write =>
      if t = .reg .cmd then .command a.data { s with accessIndex := s.accessIndex + 1 }
      else .done { s.writeTarget t a.width a.data with accessIndex := s.accessIndex + 1 }

/-- The next host event (R60, R254). With none pending the engine is idle (R66, R238); an access outside the window is
not the FCE's (R61, R71; log 6). -/
def serveHost (s : State) : Served :=
  match s.host with
  | [] => .done s
  | .reset :: rest => .done { resetEvent s with host := rest }
  | .bus kind addr width data :: rest =>
    match windowOffset s.cfg addr with
    | none => .done { s with host := rest }
    | some off => serveAccess ⟨kind, off, width, data⟩ { s with host := rest }

/-- The write of a word to CMD, as a host event (R26, R61). -/
def cmdWrite (p : Params) (w : Word) : HostEvent :=
  .bus .write (p.fceBase + RegName.cmd.offset) .w32 w

/-- An access of R60 as a host event at its system address (R61). -/
def Access.event (p : Params) (a : Access) : HostEvent :=
  .bus a.kind (p.fceBase + a.offset.toNat) a.width a.data

end Sys2Proof.Machine
end

