-- ==== Sys2Proof/Machine/Header.lean ====
section
/-! DEFINITION. The MAC header codec commands (spec 40_header_codec.md): NOP, HDR_SIZE, HDR_ENCODE, HDR_DECODE, ADDR_RESOLVE, HDR_CLEAR. Each meaning is the prologue of 60_exceptions.md R227 over the command's own body. -/

namespace Sys2Proof.Machine

/-- R142: no effect but the outcome. -/
def nopBody : Body := fun s => .ok (s, 0)

/-- R143: the size of the held header. -/
def hdrSizeBody : Body := fun s =>
  if recognized s.cfg s.hdr.fc then .ok (s, hdrSize s.hdr.fc) else .error (.fatal .hdrEnum)

/-- R144: the held header written to FBUF at BUF_OFF, field by field of its layout. -/
def hdrEncodeBody : Body := fun s =>
  if recognized s.cfg s.hdr.fc then
    if s.cfg.bufSize < s.bufOff.toNat + hdrSize s.hdr.fc then .error .bounds
    else .ok (s.writeFields s.bufOff.toNat s.hdr (layout s.hdr.fc), hdrSize s.hdr.fc)
  else .error (.fatal .hdrEnum)

/-- The frame control value HDR_DECODE reads at BUF_OFF (R108, R145). -/
def State.wireFc (s : State) : Half := BitVec.ofNat 16 (s.memRead s.bufOff.toNat 2)

/-- R145 to R148: the header at BUF_OFF read into the header registers, the absent fields 0. The checks stand in the
order of R228, the fourth-address check of R146 before the general length check. -/
def hdrDecodeBody : Body := fun s =>
  if s.cfg.bufSize < s.bufOff.toNat + s.inLen.toNat then .error .bounds
  else if s.inLen.toNat < 2 then .error .short
  else if recognized s.cfg s.wireFc = false then .error .unknown
  else if has4 s.wireFc ∧ s.inLen.toNat < 30 then .error (.fatal .addr4)
  else if s.inLen.toNat < hdrSize s.wireFc then .error .short
  else .ok ({ s with hdr := s.readFields s.bufOff.toNat .zero (layout s.wireFc) }, hdrSize s.wireFc)

/-- The address roles of R116 and R160 by (ToDS, FromDS). -/
def resolve (h : Hdr) : Resolved :=
  match fcToDs h.fc, fcFromDs h.fc with
  | false, false => { valid := 0b00111, da := h.a1, sa := h.a2, bssid := h.a3, ra := 0, ta := 0 }
  | false, true => { valid := 0b00111, da := h.a1, sa := h.a3, bssid := h.a2, ra := 0, ta := 0 }
  | true, false => { valid := 0b00111, da := h.a3, sa := h.a2, bssid := h.a1, ra := 0, ta := 0 }
  | true, true => { valid := 0b11011, da := h.a3, sa := h.a4, bssid := 0, ra := h.a1, ta := h.a2 }

/-- R160, R161: the roles of the held data header into RES_*. -/
def addrResolveBody : Body := fun s =>
  if recognized s.cfg s.hdr.fc then
    if isData s.hdr.fc then .ok ({ s with res := resolve s.hdr }, 0) else .error .notData
  else .error (.fatal .hdrEnum)

/-- R165: the nine header fields 0. -/
def hdrClearBody : Body := fun s => .ok ({ s with hdr := .zero }, 0)

/-- NOP (R142). -/
def execNop (s : State) : Host.Outcome State Fault Refusal :=
  .next (runCommand Instr.nop.opc nopBody s)

/-- HDR_SIZE (R143). -/
def execHdrSize (s : State) : Host.Outcome State Fault Refusal :=
  .next (runCommand Instr.hdrSize.opc hdrSizeBody s)

/-- HDR_ENCODE (R144). -/
def execHdrEncode (s : State) : Host.Outcome State Fault Refusal :=
  .next (runCommand Instr.hdrEncode.opc hdrEncodeBody s)

/-- HDR_DECODE (R145). -/
def execHdrDecode (s : State) : Host.Outcome State Fault Refusal :=
  .next (runCommand Instr.hdrDecode.opc hdrDecodeBody s)

/-- ADDR_RESOLVE (R160). -/
def execAddrResolve (s : State) : Host.Outcome State Fault Refusal :=
  .next (runCommand Instr.addrResolve.opc addrResolveBody s)

/-- HDR_CLEAR (R165). -/
def execHdrClear (s : State) : Host.Outcome State Fault Refusal :=
  .next (runCommand Instr.hdrClear.opc hdrClearBody s)

end Sys2Proof.Machine
end

