-- ==== Sys2Proof/Machine/Trigger.lean ====
section
/-! DEFINITION. The Trigger body codec (spec 41_trigger_codec.md R195 to R201): TRG_SIZE, TRG_ENCODE, TRG_DECODE. -/

namespace Sys2Proof.Machine

/-- The variant the held common information names (R38, R122). -/
def State.trgType? (s : State) : Option TrgType := TrgType.ofSelector (ciSelector s.trgCi)

/-- `TrgBody()` of R196: CI, then NUSERS, then one record per entry of the serialization order (R121). -/
def State.trgBody (s : State) (t : TrgType) : List Byte :=
  toOctets 8 s.trgCi.toNat ++ toOctets 1 s.uiCount
    ++ s.serial.flatMap (fun e => toOctets (recSize t) (serialize e t))

/-- R195: the size of the Trigger body. -/
def trgSizeBody : Body := fun s =>
  match s.trgType? with
  | some t => .ok (s, trgSizeOf t s.uiCount)
  | none => .error (.fatal .trgEnum)

/-- R197: the Trigger body written to FBUF at BUF_OFF. -/
def trgEncodeBody : Body := fun s =>
  match s.trgType? with
  | none => .error (.fatal .trgEnum)
  | some t =>
    if s.cfg.bufSize < s.bufOff.toNat + trgSizeOf t s.uiCount then .error .bounds
    else .ok (s.writeOctets s.bufOff.toNat (s.trgBody t), trgSizeOf t s.uiCount)

/-- The common information TRG_DECODE reads at BUF_OFF (R200). -/
def State.wireCi (s : State) : CommonInfo := BitVec.ofNat 64 (s.memRead s.bufOff.toNat 8)

/-- The declared user count TRG_DECODE reads at BUF_OFF + 8 (R200). -/
def State.wireUsers (s : State) : Nat := s.memRead (s.bufOff.toNat + 8) 1

/-- The list `E` of R200: record k is at body offset `9 + k·R`. -/
def State.wireRecords (s : State) (t : TrgType) (m : Nat) : List UiEntry :=
  (List.range m).map fun k => parse (s.memRead (s.bufOff.toNat + 9 + k * recSize t) (recSize t)) t

/-- R200, R201: the Trigger body at BUF_OFF parsed into TRG_CI and the table; the checks stand in the order of R228. -/
def trgDecodeBody : Body := fun s =>
  if s.cfg.bufSize < s.bufOff.toNat + s.inLen.toNat then .error .bounds
  else if s.inLen.toNat < 9 then .error .short
  else
    match TrgType.ofSelector (ciSelector s.wireCi) with
    | none => .error .unknown
    | some t =>
      if s.inLen.toNat < trgSizeOf t s.wireUsers then .error .short
      else if s.cfg.uiCap < s.wireUsers then .error .capacity
      else if ((s.wireRecords t s.wireUsers).map UiEntry.aid).Nodup then
        .ok ({ s with trgCi := s.wireCi, ui := s.wireRecords t s.wireUsers }, trgSizeOf t s.wireUsers)
      else .error .count

/-- TRG_SIZE (R195). -/
def execTrgSize (s : State) : Host.Outcome State Fault Refusal :=
  .next (runCommand Instr.trgSize.opc trgSizeBody s)

/-- TRG_ENCODE (R197). -/
def execTrgEncode (s : State) : Host.Outcome State Fault Refusal :=
  .next (runCommand Instr.trgEncode.opc trgEncodeBody s)

/-- TRG_DECODE (R200). -/
def execTrgDecode (s : State) : Host.Outcome State Fault Refusal :=
  .next (runCommand Instr.trgDecode.opc trgDecodeBody s)

end Sys2Proof.Machine
end

