-- ==== Sys2Proof/Machine/UserInfo.lean ====
section
/-! DEFINITION. The UserInfo table commands (spec 41_trigger_codec.md R183 to R192): UI_CLEAR, UI_INSERT, UI_REMOVE, UI_LOOKUP, UI_READ. -/

namespace Sys2Proof.Machine

/-- R183: the table emptied. -/
def uiClearBody : Body := fun s => .ok ({ s with ui := [], uiPos := 0 }, 0)

/-- R184, R185: the staged entry replaces the entry with its AID in place, or is added at the end. -/
def uiInsertBody : Body := fun s =>
  match findAid s.ui s.staged.aid with
  | some i => .ok ({ s with ui := s.ui.set i s.staged }, 0)
  | none =>
    if s.uiCount = s.cfg.uiCap then .error .capacity
    else .ok ({ s with ui := s.ui ++ [s.staged] }, 0)

/-- R186: the entry with the AID removed, the others kept in order. -/
def uiRemoveBody (aid : BitVec 12) : Body := fun s =>
  match findAid s.ui aid with
  | some i => .ok ({ s with ui := s.ui.eraseIdx i }, 0)
  | none => .error .notFound

/-- An entry copied into the staging pair, with its serialization position in UI_POS (R190, R192). -/
def State.stage (s : State) (e : UiEntry) (pos : Nat) : State :=
  { s with uiW0 := e.w0, uiW1 := e.w1, uiPos := BitVec.ofNat 8 pos }

/-- R190: the entry with the AID copied into the staging pair. -/
def uiLookupBody (aid : BitVec 12) : Body := fun s =>
  match s.ui.find? (fun e => e.aid == aid) with
  | some e => .ok (s.stage e (s.serialPos e), 0)
  | none => .error .notFound

/-- R192: the entry at a position of the serialization order copied into the staging pair. -/
def uiReadBody (pos : BitVec 16) : Body := fun s =>
  match s.serial[pos.toNat]? with
  | some e => .ok (s.stage e pos.toNat, 0)
  | none => .error .notFound

/-- UI_CLEAR (R183). -/
def execUiClear (s : State) : Host.Outcome State Fault Refusal :=
  .next (runCommand Instr.uiClear.opc uiClearBody s)

/-- UI_INSERT (R184). -/
def execUiInsert (s : State) : Host.Outcome State Fault Refusal :=
  .next (runCommand Instr.uiInsert.opc uiInsertBody s)

/-- UI_REMOVE (R186). -/
def execUiRemove (aid : BitVec 12) (s : State) : Host.Outcome State Fault Refusal :=
  .next (runCommand (Instr.uiRemove aid).opc (uiRemoveBody aid) s)

/-- UI_LOOKUP (R190). -/
def execUiLookup (aid : BitVec 12) (s : State) : Host.Outcome State Fault Refusal :=
  .next (runCommand (Instr.uiLookup aid).opc (uiLookupBody aid) s)

/-- UI_READ (R192). Under FATAL it is refused like every command, against R237: DESIGN CHOICE, log 16 (unsafe). -/
def execUiRead (pos : BitVec 16) (s : State) : Host.Outcome State Fault Refusal :=
  .next (runCommand (Instr.uiRead pos).opc (uiReadBody pos) s)

end Sys2Proof.Machine
end

