-- ==== Sys2Proof/Machine/Dispatch.lean ====
section
/-! DEFINITION. One arm per command: each calls its own meaning. -/

namespace Sys2Proof.Machine

def exec (i : Instr) (s : State) : Host.Outcome State Fault Refusal :=
  match i with
  | .nop => Sys2Proof.Machine.execNop s
  | .hdrSize => Sys2Proof.Machine.execHdrSize s
  | .hdrEncode => Sys2Proof.Machine.execHdrEncode s
  | .hdrDecode => Sys2Proof.Machine.execHdrDecode s
  | .addrResolve => Sys2Proof.Machine.execAddrResolve s
  | .hdrClear => Sys2Proof.Machine.execHdrClear s
  | .uiClear => Sys2Proof.Machine.execUiClear s
  | .uiInsert => Sys2Proof.Machine.execUiInsert s
  | .uiRemove aid => Sys2Proof.Machine.execUiRemove aid s
  | .uiLookup aid => Sys2Proof.Machine.execUiLookup aid s
  | .uiRead pos => Sys2Proof.Machine.execUiRead pos s
  | .trgSize => Sys2Proof.Machine.execTrgSize s
  | .trgEncode => Sys2Proof.Machine.execTrgEncode s
  | .trgDecode => Sys2Proof.Machine.execTrgDecode s

end Sys2Proof.Machine
end

