-- ==== Sys2Proof/Machine/Step.lean ====
section
/-! DEFINITION. One step of the machine: the host's next event, and the command it starts (spec 20_memory.md R60, R66; 60_exceptions.md R227). -/

namespace Sys2Proof.Machine

/-- One host event served to completion. A legal write to CMD runs its command, or ends in the prologue when the word is
illegal (R66, R134, R227); an illegal access is a bus error, the one fault (R63). -/
def step (s : State) : Host.Outcome State Fault Refusal :=
  match serveHost s with
  | .done s' => .next s'
  | .busError n => .fault (.busError n)
  | .command w s' =>
    match decode w with
    | .ok i => exec i s'
    | .error _ => .next (illegalCommand w s')

/-- `s` with a write of the word to CMD as the host's next event: the host supplies each command by writing CMD (R21,
R26), so this is where `step` takes its next instruction from (log 4). -/
def State.withFetchWord (s : State) (nbits w : Nat) : State :=
  { s with host := cmdWrite s.cfg (BitVec.ofNat 32 (w % 2 ^ nbits)) :: s.host }

end Sys2Proof.Machine
end

