-- ==== Sys2Proof/Machine/Assembler.lean ====
section
/-! DEFINITION. The host assembler (spec 30_encoding.md R132, R133): a line's access tuples, or a refusal where an operand does not fit its field, and the two lexical rules of R132 (immediates and comments). -/

namespace Sys2Proof.Machine

/-- A line of a host program. Operands are plain numbers; `assemble` refuses one that does not fit (R133). -/
inductive Line where
  /-- `WR32 <reg>, <imm32>`. -/
  | wrReg (r : RegName) (imm : Nat)
  /-- `RD32 <reg>`. -/
  | rdReg (r : RegName)
  /-- `WR8`, `WR16`, `WR32 BUF+<a>, <imm>`. -/
  | wrBuf (w : Width) (a imm : Nat)
  /-- `RD8`, `RD16`, `RD32 BUF+<a>`. -/
  | rdBuf (w : Width) (a : Nat)
  /-- `CMD <MNEMONIC>`. -/
  | cmd (m : Mnemonic)
  /-- `CMD <MNEMONIC>, <arg16>`. -/
  | cmdArg (m : Mnemonic) (arg : Nat)
  /-- `SETFC <type>, <subtype>, <flags16>`. -/
  | setFc (type subtype flags : Nat)
  /-- `SETADDR <n>, o0:o1:o2:o3:o4:o5`. -/
  | setAddr (n o0 o1 o2 o3 o4 o5 : Nat)
  /-- `SETSEQ <seq>, <frag>`. -/
  | setSeq (seq frag : Nat)
  /-- `SETQOS <tid>, <eosp>, <ackpol>, <amsdu>, <txop>`. -/
  | setQos (tid eosp ackpol amsdu txop : Nat)
  /-- `SETUI <aid>, <ru>, <coding>, <mcs>, <dcm>, <ss>`. -/
  | setUi (aid ru coding mcs dcm ss : Nat)
  /-- `SETUIX <ursvd>, <spacing>, <tidagg>, <brsvd>, <barctl>`. -/
  | setUix (ursvd spacing tidagg brsvd barctl : Nat)
  /-- `EXPECT <reg>, <value>`: the test program, not the FCE, compares the value. -/
  | expectReg (r : RegName) (value : Nat)
  /-- `EXPECT BUF+<a>, <value>`. -/
  | expectBuf (a value : Nat)
deriving DecidableEq, Repr

/-- Whether a number fits a field of `bits` bits (R133). -/
def fits (bits v : Nat) : Bool := v < 2 ^ bits

/-- A 32-bit write of a register (R132). -/
def asmWr (r : RegName) (v : Nat) : Access :=
  ⟨.write, BitVec.ofNat 13 r.offset, .w32, BitVec.ofNat 32 v⟩

/-- A 32-bit read of a register (R132). -/
def asmRd (r : RegName) : Access := ⟨.read, BitVec.ofNat 13 r.offset, .w32, 0⟩

/-- A buffer access at offset `0x1000 + a` (R132). -/
def asmBuf (k : AccessKind) (w : Width) (a v : Nat) : Access :=
  ⟨k, BitVec.ofNat 13 (0x1000 + a), w, BitVec.ofNat 32 v⟩

/-- The LO and HI registers of address `n` (R133, SETADDR). -/
def addrRegs : Nat → Option (RegName × RegName)
  | 1 => some (.hdrA1Lo, .hdrA1Hi)
  | 2 => some (.hdrA2Lo, .hdrA2Hi)
  | 3 => some (.hdrA3Lo, .hdrA3Hi)
  | 4 => some (.hdrA4Lo, .hdrA4Hi)
  | _ => none

/-- The access tuples of a line (R132) under the expansions of R133, or none where an operand does not fit its field. -/
def assemble : Line → Option (List Access)
  | .wrReg r imm => if fits 32 imm then some [asmWr r imm] else none
  | .rdReg r => some [asmRd r]
  | .wrBuf w a imm => if fits 12 a && fits (8 * w.octets) imm then some [asmBuf .write w a imm] else none
  | .rdBuf w a => if fits 12 a then some [asmBuf .read w a 0] else none
  | .cmd m => some [asmWr .cmd m.opc.toNat]
  | .cmdArg m arg => if fits 16 arg then some [asmWr .cmd (arg * 2 ^ 16 + m.opc.toNat)] else none
  | .setFc type subtype flags =>
    if fits 2 type && fits 4 subtype && fits 16 flags && flags &&& 0x00FC == 0 then
      some [asmWr .hdrFc (flags + subtype * 2 ^ 4 + type * 2 ^ 2)]
    else none
  | .setAddr n o0 o1 o2 o3 o4 o5 =>
    match addrRegs n with
    | none => none
    | some (lo, hi) =>
      if fits 8 o0 && fits 8 o1 && fits 8 o2 && fits 8 o3 && fits 8 o4 && fits 8 o5 then
        some [asmWr lo (o3 * 2 ^ 24 + o2 * 2 ^ 16 + o1 * 2 ^ 8 + o0), asmWr hi (o5 * 2 ^ 8 + o4)]
      else none
  | .setSeq seq frag =>
    if fits 12 seq && fits 4 frag then some [asmWr .hdrSeqctl (seq * 2 ^ 4 + frag)] else none
  | .setQos tid eosp ackpol amsdu txop =>
    if fits 4 tid && fits 1 eosp && fits 2 ackpol && fits 1 amsdu && fits 8 txop then
      some [asmWr .hdrQosctl (txop * 2 ^ 8 + amsdu * 2 ^ 7 + ackpol * 2 ^ 5 + eosp * 2 ^ 4 + tid)]
    else none
  | .setUi aid ru coding mcs dcm ss =>
    if fits 12 aid && fits 8 ru && fits 1 coding && fits 4 mcs && fits 1 dcm && fits 6 ss then
      some [asmWr .uiW0 (ss * 2 ^ 26 + dcm * 2 ^ 25 + mcs * 2 ^ 21 + coding * 2 ^ 20 + ru * 2 ^ 12 + aid)]
    else none
  | .setUix ursvd spacing tidagg brsvd barctl =>
    if fits 8 ursvd && fits 2 spacing && fits 3 tidagg && fits 3 brsvd && fits 16 barctl then
      some [asmWr .uiW1 (barctl * 2 ^ 16 + brsvd * 2 ^ 13 + tidagg * 2 ^ 10 + spacing * 2 ^ 8 + ursvd)]
    else none
  | .expectReg r value => if fits 32 value then some [asmRd r] else none
  | .expectBuf a value => if fits 12 a && fits 8 value then some [asmBuf .read .w8 a 0] else none

/-- The accesses of a whole program, in the order of its lines (R132: one access per line). -/
def assembleAll : List Line → Option (List Access)
  | [] => some []
  | l :: ls =>
    match assemble l, assembleAll ls with
    | some as, some bs => some (as ++ bs)
    | _, _ => none

/-- The value of a digit in a base, if it is one. -/
def digitOf (base : Nat) (c : Char) : Option Nat :=
  let n := c.toNat
  let v := if 48 ≤ n ∧ n ≤ 57 then n - 48 else if 65 ≤ n ∧ n ≤ 70 then n - 55
    else if 97 ≤ n ∧ n ≤ 102 then n - 87 else 16
  if v < base then some v else none

/-- The value of a digit sequence read on from `acc`. -/
def digitsFrom (base acc : Nat) : List Char → Option Nat
  | [] => some acc
  | c :: cs =>
    match digitOf base c with
    | some d => digitsFrom base (acc * base + d) cs
    | none => none

/-- R132: an immediate is hexadecimal with a `0x` prefix, or decimal. -/
def immediate : List Char → Option Nat
  | [] => none
  | '0' :: 'x' :: c :: cs => digitsFrom 16 0 (c :: cs)
  | c :: cs => digitsFrom 10 0 (c :: cs)

/-- R132: text after `;` is a comment. -/
def stripComment (line : List Char) : List Char := line.takeWhile (fun c => c ≠ ';')

end Sys2Proof.Machine
end

