-- ==== Sys2Proof/Safety.lean ====
section
/-! DEFINITION. What holds of every state the FCE can reach (the invariants the spec states: 10_state.md R37, R40; 60_exceptions.md R221, R226; 41_trigger_codec.md R202), when the engine is in service, and what a safe step is. -/

namespace Sys2Proof.Machine

/-- No octet lies outside FBUF (R42), and its written octets stand in the model's canonical form (DESIGN CHOICE, log 2). -/
abbrev State.MemoryOk (s : State) : Prop := Memory.wf s.fbuf ∧ ∀ c ∈ s.fbuf, c.1 < s.cfg.bufSize

/-- R40 (a) and R39: no two valid entries have the same AID, and there are at most `UI_CAP` of them. -/
abbrev State.TableOk (s : State) : Prop := (s.ui.map UiEntry.aid).Nodup ∧ s.uiCount ≤ s.cfg.uiCap

/-- R221: the codes 11 to 15 of ERR and 4 to 15 of FCAUSE are never produced; R226: FATAL is latched exactly while a
cause is; the last command then either raised that Fatal or was refused (R227), and RESULT_LEN is 0 (R222). -/
abbrev State.StatusOk (s : State) : Prop :=
  s.err.toNat ≤ 10 ∧ s.fcause.toNat ≤ 3 ∧ (s.fatal = true ↔ s.fcause ≠ 0) ∧ (s.err = 10 → s.fatal = true)
    ∧ (s.fatal = true → (s.err = 10 ∨ s.err = 8) ∧ s.resultLen = 0)

/-- R37: a role whose valid bit is 0 reads 0; R160 gives the only three values of RES_VALID. -/
abbrev State.ResolveOk (s : State) : Prop :=
  (s.res.valid = 0 ∨ s.res.valid = 0b00111 ∨ s.res.valid = 0b11011)
    ∧ (s.res.valid.getLsbD 0 = false → s.res.da = 0) ∧ (s.res.valid.getLsbD 1 = false → s.res.sa = 0)
    ∧ (s.res.valid.getLsbD 2 = false → s.res.bssid = 0) ∧ (s.res.valid.getLsbD 3 = false → s.res.ra = 0)
    ∧ (s.res.valid.getLsbD 4 = false → s.res.ta = 0)

/-- R39, R30: UI_POS names a position of a table of at most 255 entries, and RESULT_LEN is at most the largest size of
R202. -/
abbrev State.LengthsOk (s : State) : Prop := s.uiPos.toNat < 255 ∧ s.resultLen.toNat ≤ 1794

/-- The invariant of the machine: a legal build, and everything above. -/
abbrev State.Inv (s : State) : Prop :=
  s.cfg.WellFormed ∧ s.MemoryOk ∧ s.TableOk ∧ s.StatusOk ∧ s.ResolveOk ∧ s.LengthsOk

/-- R62, R64: when a host access is legal, said from the two rules and not from `target`. -/
def LegalAccess (p : Params) (off : BitVec 13) (w : Width) : Prop :=
  (off.toNat < 0x1000 ∧ w = .w32 ∧ off.toNat % 4 = 0 ∧ ∃ r : RegName, r.offset = off.toNat)
    ∨ (0x1000 ≤ off.toNat ∧ (off.toNat - 0x1000) % w.octets = 0
        ∧ off.toNat - 0x1000 + w.octets ≤ p.bufSize)

/-- R150: a canonical header is recognized, and its fields absent from the layout are 0. -/
def Hdr.Canonical (p : Params) (h : Hdr) : Prop :=
  recognized p h.fc = true ∧ ∀ f : HdrField, present h.fc f = false → h.get f = 0

/-- The engine takes commands: FATAL is not latched (R227). -/
abbrev State.InService (s : State) : Prop := s.fatal = false

/-- A safe step: the run goes on, and the engine is still in service (no bus error, R63; no Fatal outcome, R226). -/
abbrev SafeStep (s : State) : Prop := ∃ s', step s = .next s' ∧ s'.InService

end Sys2Proof.Machine
end

