-- ==== Sys2Proof/Certificates/Slice0/Obligations.lean ====
section
/-! DEFINITION. The statements about the FCE, from the numbered rules of the spec. Each docstring names the rule it formalises. A statement about every state ranges over every build (`s.cfg`) and every content of FBUF, written or free. -/

open Sys2Proof Sys2Proof.Machine

/-! ### Encoding (30_encoding.md R90, R91, R134) -/

/-- R90, R91: decoding and encoding are inverse to each other in both directions, so a word has one meaning and no bit of
an encoding is dropped. -/
def Obligations.DecodeAndEncodeAreInverse : Prop :=
  ∀ (i : Instr) (w : Word), decode w = .ok i ↔ w = encode i

/-- R134: "every word is a listed command or illegal", `legalWord` being written from the table of R91. -/
def Obligations.DecodeAcceptsExactlyTheLegalWords : Prop :=
  ∀ w : Word, (∃ i, decode w = .ok i) ↔ legalWord w = true

/-- R91: words written out from the opcode map. -/
def Obligations.WordsOfTheOpcodeMapDecode : Prop :=
  decode 0x00000002#32 = .ok .hdrEncode ∧ decode 0x00050012#32 = .ok (.uiRemove 5#12)
    ∧ decode 0x07D70013#32 = .ok (.uiLookup 0x7D7#12) ∧ decode 0xFFFF0014#32 = .ok (.uiRead 0xFFFF#16)
    ∧ decode 0x0000001A#32 = .ok .trgDecode ∧ decode 0x10000012#32 = .error .illegalArg
    ∧ decode 0x00000102#32 = .error .reservedNotZero ∧ decode 0x00000006#32 = .error .unassignedOpc

/-! ### The host's accesses and the prologue (20_memory.md R60 to R68, 60_exceptions.md R227) -/

/-- R26, R66: when the host's next event writes a command's word to CMD, the step is that command's `exec`, at the state
with the event taken and the access counted. -/
def Obligations.StepRunsTheDecodedCommand : Prop :=
  ∀ (s : State) (w : Word) (i : Instr) (rest : List HostEvent),
    s.host = cmdWrite s.cfg w :: rest → decode w = .ok i →
      step s = exec i { s with host := rest, accessIndex := s.accessIndex + 1 }

/-- R227 for every command word: with FATAL latched it is refused, legal or not; with FATAL clear an illegal word ends in
BADCMD and a legal one runs its command. LAST_OPC takes bits [7:0] of the word whatever the outcome. -/
def Obligations.PrologueOfEveryCommandWord : Prop :=
  ∀ (s : State) (w : Word) (rest : List HostEvent), s.host = cmdWrite s.cfg w :: rest →
    (s.fatal = true → step s = .next { s with
      host := rest, accessIndex := s.accessIndex + 1, err := 8, lastOpc := w.extractLsb' 0 8, resultLen := 0 })
    ∧ (s.fatal = false → legalWord w = false → step s = .next { s with
      host := rest, accessIndex := s.accessIndex + 1, err := 7, lastOpc := w.extractLsb' 0 8, resultLen := 0 })
    ∧ (s.fatal = false → legalWord w = true → ∃ i t, encode i = w
      ∧ step s = exec i { s with host := rest, accessIndex := s.accessIndex + 1 }
      ∧ step s = .next t ∧ t.lastOpc = w.extractLsb' 0 8)

/-- R62, R63, R64: an access inside the window is a bus error, named by its index, exactly when it is not legal. -/
def Obligations.IllegalAccessesAreExactlyTheBusErrors : Prop :=
  ∀ (s : State) (a : Access) (rest : List HostEvent), s.host = a.event s.cfg :: rest →
    (step s = .fault (.busError s.accessIndex) ↔ ¬ LegalAccess s.cfg a.offset a.width)

/-- R62, R68: a legal register read returns the register's value and has no side effect. -/
def Obligations.RegisterReadsHaveNoSideEffect : Prop :=
  ∀ (s : State) (r : RegName) (d : Word) (rest : List HostEvent),
    s.host = Access.event s.cfg ⟨.read, BitVec.ofNat 13 r.offset, .w32, d⟩ :: rest →
      step s = .next { s with
        host := rest, accessIndex := s.accessIndex + 1, reads := s.reads ++ [s.readReg r] }

/-- R62: a legal write to a register other than CMD writes that register and nothing else. -/
def Obligations.RegisterWritesReachTheirRegister : Prop :=
  ∀ (s : State) (r : RegName) (d : Word) (rest : List HostEvent), r ≠ .cmd →
    s.host = Access.event s.cfg ⟨.write, BitVec.ofNat 13 r.offset, .w32, d⟩ :: rest →
      step s = .next { s.writeReg r d with host := rest, accessIndex := s.accessIndex + 1 }

/-- R24, R25: an RW register takes the implemented bits of what is written and no other register changes; an RO register
is not changed; a reserved bit and CMD read 0. -/
def Obligations.RegistersFollowTheirAccessAndBits : Prop :=
  ∀ (s : State) (r : RegName) (v : Word),
    (r.access = .rw → (s.writeReg r v).readReg r = v &&& r.mask)
    ∧ (r.access ≠ .rw → s.writeReg r v = s)
    ∧ (∀ q, q ≠ r → (s.writeReg r v).readReg q = s.readReg q)
    ∧ s.readReg r &&& ~~~r.mask = 0 ∧ s.readReg .cmd = 0

/-- R64: a legal buffer read returns `MemRead(a, w)`; a legal buffer write sets its w octets to the low bits of the datum,
least-significant octet first, and has no effect beyond them. -/
def Obligations.BufferAccessesMoveTheirOctets : Prop :=
  ∀ (s : State) (a : Nat) (w : Width) (v : Word) (rest : List HostEvent),
    s.cfg.bufSize ≤ 4096 → a % w.octets = 0 → a + w.octets ≤ s.cfg.bufSize →
    (s.host = Access.event s.cfg ⟨.read, BitVec.ofNat 13 (0x1000 + a), w, v⟩ :: rest →
      step s = .next { s with
        host := rest, accessIndex := s.accessIndex + 1
        reads := s.reads ++ [BitVec.ofNat 32 (s.memRead a w.octets)] })
    ∧ (s.host = Access.event s.cfg ⟨.write, BitVec.ofNat 13 (0x1000 + a), w, v⟩ :: rest →
      ∃ t, step s = .next t
        ∧ t = { s with host := rest, accessIndex := s.accessIndex + 1, fbuf := t.fbuf }
        ∧ (∀ i < w.octets, t.octet (a + i) = v.extractLsb' (8 * i) 8)
        ∧ ∀ x, (x < a ∨ a + w.octets ≤ x) → t.octet x = s.octet x)

/-- R27, R30, R37, R39: no host access but a command changes STATUS, RESULT_LEN, RES_*, the table or UI_POS. -/
def Obligations.HostAccessesLeaveReadOnlyStateAlone : Prop :=
  ∀ (s t : State) (a : Access) (rest : List HostEvent), s.host = a.event s.cfg :: rest →
    ¬ (a.kind = .write ∧ a.offset = 0x010#13) → step s = .next t →
      t.cfg = s.cfg ∧ t.statusWord = s.statusWord ∧ t.resultLen = s.resultLen ∧ t.res = s.res
        ∧ t.ui = s.ui ∧ t.uiPos = s.uiPos ∧ t.fbufEpoch = s.fbufEpoch

/-- The MODEL's choices (log 4 and log 6), for R17, R61 and R71: with no host event pending a step changes nothing, and an
access outside the window is taken from the list and changes nothing else. -/
def Obligations.TheEngineActsOnlyOnItsOwnEvents : Prop :=
  ∀ s : State,
    (s.host = [] → step s = .next s)
    ∧ ∀ (k : AccessKind) (addr : Nat) (w : Width) (d : Word) (rest : List HostEvent),
      s.host = .bus k addr w d :: rest → (addr < s.cfg.fceBase ∨ s.cfg.fceBase + 0x2000 ≤ addr) →
        step s = .next { s with host := rest }

/-! ### Octets (00_scope.md R11, 30_encoding.md R92) -/

/-- R11: `MemRead(a, n)` is the sum of `FBUF[a+i] · 256^i`, and `MemWrite(a, n, v)` sets each of its n octets to bits
`8i+7..8i` of v and no other octet. -/
def Obligations.MemReadAndMemWriteAreLittleEndian : Prop :=
  ∀ (s : State) (a n v : Nat),
    s.memRead a n = ∑ i ∈ Finset.range n, (s.octet (a + i)).toNat * 256 ^ i
    ∧ (∀ i < n, ((s.memWrite a n v).octet (a + i)).toNat = v / 2 ^ (8 * i) % 256)
    ∧ ∀ x, (x < a ∨ a + n ≤ x) → (s.memWrite a n v).octet x = s.octet x

/-! ### Outcomes, the fatal latch and reset (60_exceptions.md R222 to R231, 70_reset_and_hazards.md R250) -/

/-- R225: every command is failure-atomic. A command that does not end OK leaves every register but STATUS and
RESULT_LEN, the table and FBUF as they were, with RESULT_LEN 0. Every command writes LAST_OPC. -/
def Obligations.EveryCommandIsFailureAtomic : Prop :=
  ∀ (i : Instr) (s : State), ∃ t, exec i s = .next t ∧ t.lastOpc = i.opc
    ∧ (t.err ≠ 0 → t = { s with
        err := t.err, fatal := t.fatal, fcause := t.fcause, lastOpc := t.lastOpc, resultLen := 0 })

/-- R222: which STATUS fields each outcome of a command writes. -/
def Obligations.StatusOfEveryOutcome : Prop :=
  ∀ (i : Instr) (s t : State), exec i s = .next t →
    (t.err = 0 ∧ s.fatal = false ∧ t.fatal = false ∧ t.fcause = s.fcause)
    ∨ (1 ≤ t.err.toNat ∧ t.err.toNat ≤ 9 ∧ t.fatal = s.fatal ∧ t.fcause = s.fcause)
    ∨ (t.err = 10 ∧ s.fatal = false ∧ t.fatal = true ∧ 1 ≤ t.fcause.toNat ∧ t.fcause.toNat ≤ 3)

/-- R221, columns "raised by": each outcome comes from its own commands alone, and each fatal cause from its own; BADCMD
and REFUSED are the prologue's. R231: an engine in service stays in service across every legal access that is not one of
the six commands that can raise Fatal. -/
def Obligations.EachOutcomeIsRaisedOnlyByItsCommands : Prop :=
  (∀ (i : Instr) (s t : State), s.fatal = false → exec i s = .next t →
    (t.err = 1 ∨ t.err = 2 → i = .hdrDecode ∨ i = .trgDecode)
    ∧ (t.err = 3 → i = .trgDecode)
    ∧ (t.err = 4 → i = .hdrEncode ∨ i = .hdrDecode ∨ i = .trgEncode ∨ i = .trgDecode)
    ∧ (t.err = 5 → i = .uiInsert ∨ i = .trgDecode)
    ∧ (t.err = 6 → (∃ a, i = .uiRemove a) ∨ (∃ a, i = .uiLookup a) ∨ ∃ k, i = .uiRead k)
    ∧ t.err ≠ 7 ∧ t.err ≠ 8
    ∧ (t.err = 9 → i = .addrResolve)
    ∧ (t.err = 10 → (t.fcause = 1 ∧ i = .hdrDecode)
        ∨ (t.fcause = 2 ∧ (i = .hdrSize ∨ i = .hdrEncode ∨ i = .addrResolve))
        ∨ (t.fcause = 3 ∧ (i = .trgSize ∨ i = .trgEncode))))
  ∧ ∀ (s : State) (a : Access) (rest : List HostEvent), s.host = a.event s.cfg :: rest →
      s.InService → LegalAccess s.cfg a.offset a.width →
      (a.kind = .write → a.offset = 0x010#13 → ∀ i, decode a.data = .ok i →
        i ∉ [.hdrSize, .hdrEncode, .hdrDecode, .addrResolve, .trgSize, .trgEncode]) →
        SafeStep s

/-- R226: a Fatal raise latches FATAL, FCAUSE and ERR 10; no step but the reset event clears them; reset does. -/
def Obligations.FatalIsLatchedUntilReset : Prop :=
  ∀ s : State,
    (∀ c, raise (.fatal c) s = { s with err := 10, fatal := true, fcause := c.code, resultLen := 0 })
    ∧ (∀ t, s.fatal = true → s.host.head? ≠ some .reset → step s = .next t →
        t.fatal = true ∧ t.fcause = s.fcause)
    ∧ (∀ rest, s.host = .reset :: rest → ∃ t, step s = .next t ∧ t.fatal = false ∧ t.fcause = 0)

/-- R250: the reset event leaves every register at its reset value (ID and CAP* at their constants), the table empty and
no octet of FBUF written; it is the only event that clears FATAL. -/
def Obligations.ResetClearsEveryRegister : Prop :=
  (∀ (s : State) (rest : List HostEvent), s.host = .reset :: rest →
    ∃ t, step s = .next t
      ∧ (∀ r : RegName, t.readReg r =
          if r = .id ∨ r = .cap0 ∨ r = .cap1 ∨ r = .cap2 then s.readReg r else 0)
      ∧ t.cfg = s.cfg ∧ t.ui = [] ∧ t.fbuf = [] ∧ t.host = rest)
  ∧ ∀ s t : State, s.fatal = true → step s = .next t → t.fatal = false → s.host.head? = some .reset

/-- R250 and, by the MODEL's choice (log 1), the reference configuration: what each register reads at `State.reset`. -/
def Obligations.RegistersAtTheResetState : Prop :=
  ∀ r : RegName, State.reset.readReg r =
    match r with
    | .id => 0x46434501#32
    | .cap0 => 0x3B042533#32
    | .cap1 => 0x00200101#32
    | .cap2 => 0x00000800#32
    | _ => 0#32

/-- The invariant holds at `State.reset` (in the build of the MODEL's choice, log 1), and after the reset of every legal
build, whatever FBUF drew (R250 to R252). -/
def Obligations.ResetStateMeetsTheInvariant : Prop :=
  State.reset.Inv ∧ ∀ (p : Params) (epoch : Nat), p.WellFormed → (State.resetOf p epoch).Inv

/-- Every step keeps the invariant: a legal build (R8, R9), no octet outside FBUF (R42), FBUF's written octets in the
MODEL's canonical form (log 2), the table keyed by AID and within UI_CAP (R40), the reserved STATUS codes never produced
(R221), FATAL tied to its cause, to ERR 10 or 8 and to RESULT_LEN 0 (R222, R226, R227), RES_VALID one of its three values
and an invalid role 0 (R37, R160), UI_POS a position (R39), and RESULT_LEN within the largest size of R202 (R30). -/
def Obligations.EveryStepKeepsTheInvariant : Prop :=
  ∀ s t : State, s.Inv → step s = .next t → t.Inv

/-- Which commands write which state: HDR_* (R147, R165), RES_* (R43, R160, R161), TRG_CI (R200), the table (R183, R184,
R186, R200), UI_W0, UI_W1 and UI_POS (R39, R41, R183, R190, R192), FBUF (R144, R197); none writes BUF_OFF or IN_LEN (R28,
R29), nor the MODEL's own fields (log 3, 4, 5). -/
def Obligations.OnlyTheNamedCommandsWriteEachPieceOfState : Prop :=
  ∀ (i : Instr) (s t : State), exec i s = .next t →
    (t.cfg = s.cfg ∧ t.bufOff = s.bufOff ∧ t.inLen = s.inLen ∧ t.fbufEpoch = s.fbufEpoch
      ∧ t.host = s.host ∧ t.accessIndex = s.accessIndex ∧ t.reads = s.reads)
    ∧ (i ≠ .hdrDecode → i ≠ .hdrClear → t.hdr = s.hdr)
    ∧ (i ≠ .addrResolve → t.res = s.res)
    ∧ (i ≠ .trgDecode → t.trgCi = s.trgCi)
    ∧ (i ≠ .uiClear → i ≠ .uiInsert → (∀ a, i ≠ .uiRemove a) → i ≠ .trgDecode → t.ui = s.ui)
    ∧ ((∀ a, i ≠ .uiLookup a) → (∀ k, i ≠ .uiRead k) → t.uiW0 = s.uiW0 ∧ t.uiW1 = s.uiW1)
    ∧ ((∀ a, i ≠ .uiLookup a) → (∀ k, i ≠ .uiRead k) → i ≠ .uiClear → t.uiPos = s.uiPos)
    ∧ (i ≠ .hdrEncode → i ≠ .trgEncode → ∀ a, t.octet a = s.octet a)

/-! ### Header layout (30_encoding.md R96 to R107) -/

/-- R96, R97, R99 with the constraint of R9: TYPE 3 is never recognized, nor is a control subtype whose size the source
does not give; each other class by the bit of its mask. -/
def Obligations.RecognitionFollowsTheMasks : Prop :=
  ∀ (p : Params) (fc : Half), p.WellFormed →
    (fcType fc = 3 → recognized p fc = false)
    ∧ (fcType fc = 0 → recognized p fc = p.recogMgmt.getLsbD (fcSubtype fc).toNat)
    ∧ (fcType fc = 1 → recognized p fc = p.recogCtrl.getLsbD (fcSubtype fc).toNat)
    ∧ (fcType fc = 2 → recognized p fc = p.recogData.getLsbD (fcSubtype fc).toNat)
    ∧ (fcType fc = 1 → recognized p fc = true → (fcSubtype fc).toNat ∈ [2, 8, 9, 11, 12, 13])

/-- R105: the fields, offsets and size of every data layout by (ToDS and FromDS, QoS bit, Order), and of the management
and control layouts. -/
def Obligations.LayoutsAreThoseOfTheTable : Prop :=
  ∀ fc : Half,
    let base : List FieldAt :=
      [⟨.fc, 0, 2⟩, ⟨.dur, 2, 2⟩, ⟨.a1, 4, 6⟩, ⟨.a2, 10, 6⟩, ⟨.a3, 16, 6⟩, ⟨.seq, 22, 2⟩]
    (fcType fc = 2 → (layout fc, hdrSize fc) =
      match fcToDs fc && fcFromDs fc, fc.getLsbD 7, fcOrder fc with
      | false, false, _ => (base, 24)
      | false, true, false => (base ++ [⟨.qos, 24, 2⟩], 26)
      | false, true, true => (base ++ [⟨.qos, 24, 2⟩, ⟨.htc, 26, 4⟩], 30)
      | true, false, _ => (base ++ [⟨.a4, 24, 6⟩], 30)
      | true, true, false => (base ++ [⟨.a4, 24, 6⟩, ⟨.qos, 30, 2⟩], 32)
      | true, true, true => (base ++ [⟨.a4, 24, 6⟩, ⟨.qos, 30, 2⟩, ⟨.htc, 32, 4⟩], 36))
    ∧ (fcType fc = 0 → (layout fc, hdrSize fc) = (base, 24))
    ∧ (fcType fc = 1 → (fcSubtype fc = 12 ∨ fcSubtype fc = 13) →
        (layout fc, hdrSize fc) = ([⟨.fc, 0, 2⟩, ⟨.dur, 2, 2⟩, ⟨.a1, 4, 6⟩], 10))
    ∧ (fcType fc = 1 → fcSubtype fc ≠ 12 → fcSubtype fc ≠ 13 →
        (layout fc, hdrSize fc) = ([⟨.fc, 0, 2⟩, ⟨.dur, 2, 2⟩, ⟨.a1, 4, 6⟩, ⟨.a2, 10, 6⟩], 16))

/-- R106: the smallest header is 10 octets and the largest 36, and both occur; the fields of a layout fill it (R104). -/
def Obligations.HeaderSizesLieBetweenTenAndThirtySix : Prop :=
  (∀ (p : Params) (fc : Half), recognized p fc = true →
    10 ≤ hdrSize fc ∧ hdrSize fc ≤ 36 ∧ ((layout fc).map FieldAt.width).sum = hdrSize fc
      ∧ ∃ e ∈ (layout fc).getLast?, e.off + e.width = hdrSize fc)
  ∧ hdrSize 0x00C4#16 = 10 ∧ hdrSize 0x00D4#16 = 10 ∧ hdrSize 0x8388#16 = 36

/-- R107: the layout depends on TYPE, SUBTYPE, TODS, FROMDS and ORDER and on nothing else. -/
def Obligations.LayoutDependsOnFiveFieldsAlone : Prop :=
  ∀ fc gc : Half, fcType fc = fcType gc → fcSubtype fc = fcSubtype gc → fcToDs fc = fcToDs gc →
    fcFromDs fc = fcFromDs gc → fcOrder fc = fcOrder gc →
      layout fc = layout gc ∧ hdrSize fc = hdrSize gc

/-! ### Header commands (40_header_codec.md) -/

/-- R142: NOP changes nothing but the outcome; under FATAL it is refused. -/
def Obligations.NopChangesOnlyTheOutcome : Prop :=
  ∀ s : State,
    (s.fatal = false → exec .nop s = .next { s with err := 0, lastOpc := 0x00, resultLen := 0 })
    ∧ (s.fatal = true → exec .nop s = .next { s with err := 8, lastOpc := 0x00, resultLen := 0 })

/-- R143: HDR_SIZE writes the size of a recognized held header; an unrecognized one is Fatal(HDR_ENUM). -/
def Obligations.HdrSizeWritesTheHeaderSize : Prop :=
  ∀ s : State, s.fatal = false →
    (recognized s.cfg s.hdr.fc = true → exec .hdrSize s = .next { s with
      err := 0, lastOpc := 0x01, resultLen := BitVec.ofNat 13 (hdrSize s.hdr.fc) })
    ∧ (recognized s.cfg s.hdr.fc = false → exec .hdrSize s = .next { s with
      err := 10, fatal := true, fcause := 2, lastOpc := 0x01, resultLen := 0 })

/-- R144: HDR_ENCODE writes each field of the layout at its offset, least-significant octet first, and FBUF outside
`[o, o+S)` and every other register stay; it raises Fatal(HDR_ENUM), then BOUNDS, with FBUF unchanged. -/
def Obligations.HdrEncodeWritesTheHeader : Prop :=
  ∀ s : State, s.fatal = false →
    (recognized s.cfg s.hdr.fc = false → exec .hdrEncode s = .next { s with
      err := 10, fatal := true, fcause := 2, lastOpc := 0x02, resultLen := 0 })
    ∧ (recognized s.cfg s.hdr.fc = true → s.cfg.bufSize < s.bufOff.toNat + hdrSize s.hdr.fc →
      exec .hdrEncode s = .next { s with err := 4, lastOpc := 0x02, resultLen := 0 })
    ∧ (recognized s.cfg s.hdr.fc = true → s.bufOff.toNat + hdrSize s.hdr.fc ≤ s.cfg.bufSize →
      ∃ t, exec .hdrEncode s = .next t
        ∧ t = { s with err := 0, lastOpc := 0x02, fbuf := t.fbuf
                       resultLen := BitVec.ofNat 13 (hdrSize s.hdr.fc) }
        ∧ (∀ f ∈ layout s.hdr.fc, ∀ k < f.width,
            t.octet (s.bufOff.toNat + f.off + k) = BitVec.ofNat 8 (s.hdr.get f.field / 256 ^ k))
        ∧ ∀ a, (a < s.bufOff.toNat ∨ s.bufOff.toNat + hdrSize s.hdr.fc ≤ a) → t.octet a = s.octet a)

/-- R149: HDR_ENCODE reads only the registers of the fields in the layout: two headers that agree on those encode to the
same octets with the same outcome. -/
def Obligations.HdrEncodeIgnoresAbsentFields : Prop :=
  ∀ (s : State) (h : Hdr), (∀ f ∈ layout s.hdr.fc, h.get f.field = s.hdr.get f.field) →
    ∃ t, exec .hdrEncode s = .next t ∧ exec .hdrEncode { s with hdr := h } = .next { t with hdr := h }

/-- R145, R147: a successful HDR_DECODE writes every field of the layout from its octets and 0 to every absent field, and
RESULT_LEN is the size; nothing else changes. -/
def Obligations.HdrDecodeReadsTheHeader : Prop :=
  ∀ s : State, s.fatal = false → s.bufOff.toNat + s.inLen.toNat ≤ s.cfg.bufSize →
    recognized s.cfg s.wireFc = true → hdrSize s.wireFc ≤ s.inLen.toNat →
      ∃ h : Hdr, exec .hdrDecode s = .next { s with
          err := 0, lastOpc := 0x03, resultLen := BitVec.ofNat 13 (hdrSize s.wireFc), hdr := h }
        ∧ h.fc.toNat = s.memRead s.bufOff.toNat 2
        ∧ (∀ f ∈ layout s.wireFc, h.get f.field = s.memRead (s.bufOff.toNat + f.off) f.width)
        ∧ ∀ f, present s.wireFc f = false → h.get f = 0

/-- R145, R228: the checks of HDR_DECODE in their order: BOUNDS, SHORT below 2 octets, UNKNOWN, Fatal(ADDR4), SHORT below
the size; on each, no header register changes. -/
def Obligations.HdrDecodeRaisesInTheOrderOfItsChecks : Prop :=
  ∀ s : State, s.fatal = false →
    (s.cfg.bufSize < s.bufOff.toNat + s.inLen.toNat →
      exec .hdrDecode s = .next { s with err := 4, lastOpc := 0x03, resultLen := 0 })
    ∧ (s.bufOff.toNat + s.inLen.toNat ≤ s.cfg.bufSize → s.inLen.toNat < 2 →
      exec .hdrDecode s = .next { s with err := 1, lastOpc := 0x03, resultLen := 0 })
    ∧ (s.bufOff.toNat + s.inLen.toNat ≤ s.cfg.bufSize → 2 ≤ s.inLen.toNat →
        recognized s.cfg s.wireFc = false →
      exec .hdrDecode s = .next { s with err := 2, lastOpc := 0x03, resultLen := 0 })
    ∧ (s.bufOff.toNat + s.inLen.toNat ≤ s.cfg.bufSize → 2 ≤ s.inLen.toNat →
        recognized s.cfg s.wireFc = true → s.inLen.toNat < hdrSize s.wireFc →
        (has4 s.wireFc = true → 30 ≤ s.inLen.toNat) →
      exec .hdrDecode s = .next { s with err := 1, lastOpc := 0x03, resultLen := 0 })

/-- R146: a recognized data frame with ToDS and FromDS whose octets end before offset 30 is Fatal(ADDR4), whatever its
declared size; where they reach 30 but stop short of the QoS or HT/HE control field it is Malformed(SHORT). -/
def Obligations.TruncatedFourAddressFrameIsFatal : Prop :=
  ∀ s : State, s.fatal = false → s.bufOff.toNat + s.inLen.toNat ≤ s.cfg.bufSize →
    recognized s.cfg s.wireFc = true → fcType s.wireFc = 2 → fcToDs s.wireFc = true →
    fcFromDs s.wireFc = true → 2 ≤ s.inLen.toNat →
    (s.inLen.toNat < 30 → exec .hdrDecode s = .next { s with
      err := 10, fatal := true, fcause := 1, lastOpc := 0x03, resultLen := 0 })
    ∧ (30 ≤ s.inLen.toNat → s.inLen.toNat < hdrSize s.wireFc → exec .hdrDecode s = .next { s with
      err := 1, lastOpc := 0x03, resultLen := 0 })

/-- R148: HDR_DECODE reads only the octets of the header: two FBUFs that agree on `[o, o+S)` give the same outcome and
the same registers; on success RESULT_LEN is the number S of octets read, and none of `[o+S, o+n)` is. -/
def Obligations.HdrDecodeReadsOnlyTheHeader : Prop :=
  ∀ (s : State) (m : Memory),
    (∀ a, s.bufOff.toNat ≤ a → a < s.bufOff.toNat + hdrSize s.wireFc →
      State.octet { s with fbuf := m } a = s.octet a) →
    ∃ t, exec .hdrDecode s = .next t ∧ exec .hdrDecode { s with fbuf := m } = .next { t with fbuf := m }
      ∧ (t.err = 0 → t.resultLen = BitVec.ofNat 13 (hdrSize s.wireFc))

/-- R152: from FATAL = 0, HDR_DECODE ends in complete, BOUNDS, SHORT, UNKNOWN or Fatal(ADDR4), and never reads outside
`FBUF[o..o+n-1]`. -/
def Obligations.HdrDecodeIsTotalAndConfined : Prop :=
  ∀ (s : State) (m : Memory), s.fatal = false →
    (∀ a, s.bufOff.toNat ≤ a → a < s.bufOff.toNat + s.inLen.toNat →
      State.octet { s with fbuf := m } a = s.octet a) →
    ∃ t, exec .hdrDecode s = .next t ∧ exec .hdrDecode { s with fbuf := m } = .next { t with fbuf := m }
      ∧ (t.err = 0 ∨ t.err = 4 ∨ t.err = 1 ∨ t.err = 2 ∨ (t.err = 10 ∧ t.fcause = 1))

/-- R160: the address roles of a recognized data header by (ToDS, FromDS), the roles not assigned 0; an unrecognized
header is Fatal(HDR_ENUM), a recognized one that is no data frame NOTDATA. -/
def Obligations.AddrResolveWritesTheRoles : Prop :=
  ∀ s : State, s.fatal = false →
    (recognized s.cfg s.hdr.fc = true → fcType s.hdr.fc = 2 →
      exec .addrResolve s = .next { s with
        err := 0, lastOpc := 0x04, resultLen := 0
        res := if s.hdr.fc.getLsbD 8 = false ∧ s.hdr.fc.getLsbD 9 = false then
            { valid := 0b00111, da := s.hdr.a1, sa := s.hdr.a2, bssid := s.hdr.a3, ra := 0, ta := 0 }
          else if s.hdr.fc.getLsbD 8 = false then
            { valid := 0b00111, da := s.hdr.a1, sa := s.hdr.a3, bssid := s.hdr.a2, ra := 0, ta := 0 }
          else if s.hdr.fc.getLsbD 9 = false then
            { valid := 0b00111, da := s.hdr.a3, sa := s.hdr.a2, bssid := s.hdr.a1, ra := 0, ta := 0 }
          else
            { valid := 0b11011, da := s.hdr.a3, sa := s.hdr.a4, bssid := 0, ra := s.hdr.a1, ta := s.hdr.a2 } })
    ∧ (recognized s.cfg s.hdr.fc = false → exec .addrResolve s = .next { s with
      err := 10, fatal := true, fcause := 2, lastOpc := 0x04, resultLen := 0 })
    ∧ (recognized s.cfg s.hdr.fc = true → fcType s.hdr.fc ≠ 2 → exec .addrResolve s = .next { s with
      err := 9, lastOpc := 0x04, resultLen := 0 })

/-- R165: HDR_CLEAR writes 0 to all nine header fields and nothing else but the outcome; the frame control it leaves is
recognized exactly if RECOG_MGMT bit 0 is 1. -/
def Obligations.HdrClearZeroesTheHeader : Prop :=
  ∀ s : State, s.fatal = false →
    exec .hdrClear s = .next { s with
      err := 0, lastOpc := 0x05, resultLen := 0
      hdr := { fc := 0, dur := 0, a1 := 0, a2 := 0, a3 := 0, a4 := 0, seqctl := 0, qosctl := 0, htc := 0 } }
    ∧ recognized s.cfg 0x0000#16 = s.cfg.recogMgmt.getLsbD 0

/-- R150: encoding a recognized header at o, changing the header registers arbitrarily and decoding at o with IN_LEN n
gives the canonical form of the header: the present fields as they were and the absent ones 0. For a canonical header
that is the header itself. Both commands end OK with RESULT_LEN the size. -/
def Obligations.HeaderRoundTrip : Prop :=
  ∀ (s : State) (n : BitVec 13), s.fatal = false → recognized s.cfg s.hdr.fc = true →
    hdrSize s.hdr.fc ≤ n.toNat → s.bufOff.toNat + n.toNat ≤ s.cfg.bufSize →
      ∃ t, exec .hdrEncode s = .next t ∧ t.err = 0 ∧ t.resultLen.toNat = hdrSize s.hdr.fc
        ∧ ∀ h : Hdr, ∃ u, exec .hdrDecode { t with hdr := h, inLen := n } = .next u
          ∧ u.err = 0 ∧ u.resultLen.toNat = hdrSize s.hdr.fc
          ∧ (∀ f, u.hdr.get f = if present s.hdr.fc f then s.hdr.get f else 0)
          ∧ (s.hdr.Canonical s.cfg → u.hdr = s.hdr)

/-- R151: HDR_SIZE and a successful HDR_ENCODE write the same RESULT_LEN, which is the number of octets written: every
octet of FBUF from `o + RESULT_LEN` on, and below o, is unchanged, and those between come from the header registers. -/
def Obligations.HdrSizeAgreesWithHdrEncode : Prop :=
  ∀ s : State, s.fatal = false → recognized s.cfg s.hdr.fc = true →
    s.bufOff.toNat + hdrSize s.hdr.fc ≤ s.cfg.bufSize →
      ∃ t u, exec .hdrSize s = .next t ∧ exec .hdrEncode s = .next u ∧ u.err = 0
        ∧ t.resultLen = u.resultLen
        ∧ (∀ a, (a < s.bufOff.toNat ∨ s.bufOff.toNat + u.resultLen.toNat ≤ a) → u.octet a = s.octet a)
        ∧ ∀ m : Memory, ∃ v, exec .hdrEncode { s with fbuf := m } = .next v
          ∧ ∀ k < u.resultLen.toNat, v.octet (s.bufOff.toNat + k) = u.octet (s.bufOff.toNat + k)

/-! ### The UserInfo table (41_trigger_codec.md R181 to R192) -/

/-- R181: the serialization order holds exactly the entries of the table; it is the array order under INSERTION and
strictly ascending by AID under AID_ASC. -/
def Obligations.SerializationOrder : Prop :=
  ∀ s : State, s.TableOk →
    s.serial.Perm s.ui
    ∧ (s.cfg.uiOrder = .insertion → s.serial = s.ui)
    ∧ (s.cfg.uiOrder = .aidAsc → s.serial.Pairwise (fun a b => a.aid.toNat < b.aid.toNat))

/-- R183: UI_CLEAR empties the table and sets UI_POS to 0. -/
def Obligations.UiClearEmptiesTheTable : Prop :=
  ∀ s : State, s.fatal = false → exec .uiClear s = .next { s with
    err := 0, lastOpc := 0x10, resultLen := 0, ui := [], uiPos := 0 }

/-- R184: UI_INSERT replaces the entry with the staged AID in place, else adds the staged pair at the end, or raises
CAPACITY on a full table; the table alone changes. No AID stands twice in the table (R40). -/
def Obligations.UiInsertReplacesOrAppends : Prop :=
  ∀ s : State, s.fatal = false → s.TableOk →
    (∀ (l r : List UiEntry) (e : UiEntry), s.ui = l ++ e :: r → e.aid = s.uiW0.extractLsb' 0 12 →
      exec .uiInsert s = .next { s with
        err := 0, lastOpc := 0x11, resultLen := 0, ui := l ++ ⟨s.uiW1, s.uiW0⟩ :: r })
    ∧ ((∀ x ∈ s.ui, x.aid ≠ s.uiW0.extractLsb' 0 12) → s.ui.length ≠ s.cfg.uiCap →
      exec .uiInsert s = .next { s with
        err := 0, lastOpc := 0x11, resultLen := 0, ui := s.ui ++ [⟨s.uiW1, s.uiW0⟩] })
    ∧ ((∀ x ∈ s.ui, x.aid ≠ s.uiW0.extractLsb' 0 12) → s.ui.length = s.cfg.uiCap →
      exec .uiInsert s = .next { s with err := 5, lastOpc := 0x11, resultLen := 0 })

/-- R184: inserting the same staged pair twice gives the same state as once. In a table that no run reaches, with one AID
twice, it rests on the MODEL's choice that FindAID takes the first match (log 8). -/
def Obligations.UiInsertIsIdempotent : Prop :=
  ∀ s t : State, s.fatal = false → exec .uiInsert s = .next t → exec .uiInsert t = .next t

/-- R186: UI_REMOVE removes the entry with the AID, the others kept in order; without one it raises NOTFOUND. No AID
stands twice in the table (R40). -/
def Obligations.UiRemoveCompactsTheTable : Prop :=
  ∀ (s : State) (aid : BitVec 12), s.fatal = false → s.TableOk →
    (∀ (l r : List UiEntry) (e : UiEntry), s.ui = l ++ e :: r → e.aid = aid →
      exec (.uiRemove aid) s = .next { s with err := 0, lastOpc := 0x12, resultLen := 0, ui := l ++ r })
    ∧ ((∀ x ∈ s.ui, x.aid ≠ aid) →
      exec (.uiRemove aid) s = .next { s with err := 6, lastOpc := 0x12, resultLen := 0 })

/-- R68: the second removal of one AID ends with NOTFOUND. -/
def Obligations.SecondRemovalIsNotFound : Prop :=
  ∀ (s : State) (aid : BitVec 12), s.fatal = false → s.TableOk → (∃ e ∈ s.ui, e.aid = aid) →
    ∃ t, exec (.uiRemove aid) s = .next t ∧ t.err = 0 ∧ t.ui.length + 1 = s.ui.length
      ∧ exec (.uiRemove aid) t = .next { t with err := 6, lastOpc := 0x12, resultLen := 0 }

/-- R190: UI_LOOKUP copies the entry with the AID into the staging pair and its serialization position into UI_POS; without
one it raises NOTFOUND. -/
def Obligations.UiLookupStagesTheEntry : Prop :=
  ∀ (s : State) (aid : BitVec 12), s.fatal = false → s.TableOk →
    (∀ e ∈ s.ui, e.aid = aid → ∃ k, s.serial[k]? = some e
      ∧ exec (.uiLookup aid) s = .next { s with
        err := 0, lastOpc := 0x13, resultLen := 0, uiW0 := e.w0, uiW1 := e.w1, uiPos := BitVec.ofNat 8 k })
    ∧ ((∀ e ∈ s.ui, e.aid ≠ aid) →
      exec (.uiLookup aid) s = .next { s with err := 6, lastOpc := 0x13, resultLen := 0 })

/-- R192: UI_READ copies the entry at a position of the serialization order into the staging pair and sets UI_POS to it;
at or past UI_COUNT it raises NOTFOUND. -/
def Obligations.UiReadStagesTheEntryAtAPosition : Prop :=
  ∀ (s : State) (k : BitVec 16), s.fatal = false →
    (∀ e, s.serial[k.toNat]? = some e →
      exec (.uiRead k) s = .next { s with
        err := 0, lastOpc := 0x14, resultLen := 0, uiW0 := e.w0, uiW1 := e.w1
        uiPos := BitVec.ofNat 8 k.toNat })
    ∧ (k.toNat < s.ui.length → ∃ e, s.serial[k.toNat]? = some e)
    ∧ (s.ui.length ≤ k.toNat →
      exec (.uiRead k) s = .next { s with err := 6, lastOpc := 0x14, resultLen := 0 })

/-! ### The Trigger body (30_encoding.md R121 to R131, 41_trigger_codec.md R195 to R206) -/

/-- R129: the bits Serialize writes and Parse reads for each variant; what the variant does not carry is dropped and reads
back as 0. -/
def Obligations.RecordsSerializeAndParse : Prop :=
  (∀ (e : UiEntry) (t : TrgType), serialize e t < 256 ^ recSize t
    ∧ (let r : BitVec 56 := BitVec.ofNat 56 (serialize e t)
       r.extractLsb' 0 32 = e.w0 ∧ r.extractLsb' 32 8 = e.w1.extractLsb' 0 8
       ∧ (t = .basic → r.extractLsb' 40 8 = e.w1.extractLsb' 8 8)
       ∧ (t = .muBar → r.extractLsb' 40 16 = e.w1.extractLsb' 16 16)))
  ∧ (∀ (n : Nat) (t : TrgType),
    let r : BitVec 56 := BitVec.ofNat 56 n
    (parse n t).w0 = r.extractLsb' 0 32 ∧ (parse n t).w1.extractLsb' 0 8 = r.extractLsb' 32 8
    ∧ (parse n t).w1.extractLsb' 8 8 = (if t = .basic then r.extractLsb' 40 8 else 0)
    ∧ (parse n t).w1.extractLsb' 16 16 = (if t = .muBar then r.extractLsb' 40 16 else 0))

/-- R129: Parse of a serialized entry keeps W0 and the bits of W1 the variant carries, and zeroes the rest. -/
def Obligations.ParseOfSerializeKeepsTheCarriedBits : Prop :=
  ∀ (e : UiEntry) (t : TrgType), parse (serialize e t) t =
    ⟨match t with
      | .basic => e.w1 &&& 0x0000FFFF#32
      | .muBar => e.w1 &&& 0xFFFF00FF#32
      | .muRts => e.w1 &&& 0x000000FF#32
      | .bsrp => e.w1 &&& 0x000000FF#32, e.w0⟩

/-- R195, R122, R123: TRG_SIZE writes 9 + UI_COUNT · RecSize for the selectors 0, 2, 3 and 4; every other selector is
Fatal(TRG_ENUM). -/
def Obligations.TrgSizeWritesTheBodySize : Prop :=
  ∀ s : State, s.fatal = false →
    (∀ r : Nat, (s.trgCi.extractLsb' 0 4 = 0 ∧ r = 6 ∨ s.trgCi.extractLsb' 0 4 = 2 ∧ r = 7
        ∨ s.trgCi.extractLsb' 0 4 = 3 ∧ r = 5 ∨ s.trgCi.extractLsb' 0 4 = 4 ∧ r = 5) →
      exec .trgSize s = .next { s with
        err := 0, lastOpc := 0x18, resultLen := BitVec.ofNat 13 (9 + s.ui.length * r) }
      ∧ (s.ui.length ≤ 255 → 9 + s.ui.length * r ≤ 1794))
    ∧ (s.trgCi.extractLsb' 0 4 ≠ 0 → s.trgCi.extractLsb' 0 4 ≠ 2 → s.trgCi.extractLsb' 0 4 ≠ 3 →
        s.trgCi.extractLsb' 0 4 ≠ 4 →
      exec .trgSize s = .next { s with
        err := 10, fatal := true, fcause := 3, lastOpc := 0x18, resultLen := 0 })

/-- R197, R196: TRG_ENCODE writes CI, NUSERS and the records of the serialization order at BUF_OFF, and FBUF outside
`[o, o+S)` and every other register stay; it raises Fatal(TRG_ENUM), then BOUNDS, with FBUF unchanged. -/
def Obligations.TrgEncodeWritesTheBody : Prop :=
  ∀ s : State, s.fatal = false →
    (s.trgType? = none → exec .trgEncode s = .next { s with
      err := 10, fatal := true, fcause := 3, lastOpc := 0x19, resultLen := 0 })
    ∧ (∀ ty, s.trgType? = some ty → s.cfg.bufSize < s.bufOff.toNat + trgSizeOf ty s.ui.length →
      exec .trgEncode s = .next { s with err := 4, lastOpc := 0x19, resultLen := 0 })
    ∧ (∀ ty, s.trgType? = some ty → s.bufOff.toNat + trgSizeOf ty s.ui.length ≤ s.cfg.bufSize →
      ∃ t, exec .trgEncode s = .next t
        ∧ t = { s with err := 0, lastOpc := 0x19, fbuf := t.fbuf
                       resultLen := BitVec.ofNat 13 (trgSizeOf ty s.ui.length) }
        ∧ t.memRead s.bufOff.toNat 8 = s.trgCi.toNat
        ∧ t.octet (s.bufOff.toNat + 8) = BitVec.ofNat 8 s.ui.length
        ∧ (∀ k e, s.serial[k]? = some e →
            t.memRead (s.bufOff.toNat + 9 + k * recSize ty) (recSize ty) = serialize e ty)
        ∧ ∀ a, (a < s.bufOff.toNat ∨ s.bufOff.toNat + trgSizeOf ty s.ui.length ≤ a) →
            t.octet a = s.octet a)

/-- R192, R197: reading positions 0, 1, … in turn yields the records TRG_ENCODE writes, in its order. -/
def Obligations.UiReadYieldsTheEncodedRecords : Prop :=
  ∀ (s t : State) (ty : TrgType) (k : BitVec 16), s.fatal = false → s.trgType? = some ty →
    exec .trgEncode s = .next t → t.err = 0 → k.toNat < s.ui.length →
      ∃ u, exec (.uiRead k) t = .next u ∧ u.err = 0
        ∧ serialize u.staged ty
          = t.memRead (s.bufOff.toNat + 9 + k.toNat * recSize ty) (recSize ty)

/-- R200: a successful TRG_DECODE writes CI and replaces the table by the parsed records in wire order, and nothing else
but the outcome. -/
def Obligations.TrgDecodeReadsTheBody : Prop :=
  ∀ (s : State) (ty : TrgType) (m : Nat), s.fatal = false →
    s.bufOff.toNat + s.inLen.toNat ≤ s.cfg.bufSize →
    TrgType.ofSelector (BitVec.ofNat 4 (s.memRead s.bufOff.toNat 8)) = some ty →
    m = (s.octet (s.bufOff.toNat + 8)).toNat → 9 + m * recSize ty ≤ s.inLen.toNat → m ≤ s.cfg.uiCap →
    (∀ j k, j < k → k < m →
      (s.memRead (s.bufOff.toNat + 9 + j * recSize ty) (recSize ty)) % 4096
        ≠ (s.memRead (s.bufOff.toNat + 9 + k * recSize ty) (recSize ty)) % 4096) →
      ∃ l : List UiEntry, exec .trgDecode s = .next { s with
          err := 0, lastOpc := 0x1A, resultLen := BitVec.ofNat 13 (9 + m * recSize ty)
          trgCi := BitVec.ofNat 64 (s.memRead s.bufOff.toNat 8), ui := l }
        ∧ l.length = m
        ∧ ∀ k < m, l[k]? = some (parse (s.memRead (s.bufOff.toNat + 9 + k * recSize ty) (recSize ty)) ty)

/-- R200, R201, R228: the checks of TRG_DECODE in their order: BOUNDS, SHORT below 9 octets, UNKNOWN, SHORT below the
declared size, CAPACITY, COUNT; on each, TRG_CI and the table stay. -/
def Obligations.TrgDecodeRaisesInTheOrderOfItsChecks : Prop :=
  ∀ s : State, s.fatal = false →
    (s.cfg.bufSize < s.bufOff.toNat + s.inLen.toNat →
      exec .trgDecode s = .next { s with err := 4, lastOpc := 0x1A, resultLen := 0 })
    ∧ (s.bufOff.toNat + s.inLen.toNat ≤ s.cfg.bufSize → s.inLen.toNat < 9 →
      exec .trgDecode s = .next { s with err := 1, lastOpc := 0x1A, resultLen := 0 })
    ∧ (s.bufOff.toNat + s.inLen.toNat ≤ s.cfg.bufSize → 9 ≤ s.inLen.toNat →
        TrgType.ofSelector (ciSelector s.wireCi) = none →
      exec .trgDecode s = .next { s with err := 2, lastOpc := 0x1A, resultLen := 0 })
    ∧ (∀ ty, s.bufOff.toNat + s.inLen.toNat ≤ s.cfg.bufSize → 9 ≤ s.inLen.toNat →
        TrgType.ofSelector (ciSelector s.wireCi) = some ty →
        (s.inLen.toNat < trgSizeOf ty s.wireUsers →
          exec .trgDecode s = .next { s with err := 1, lastOpc := 0x1A, resultLen := 0 })
        ∧ (trgSizeOf ty s.wireUsers ≤ s.inLen.toNat → s.cfg.uiCap < s.wireUsers →
          exec .trgDecode s = .next { s with err := 5, lastOpc := 0x1A, resultLen := 0 })
        ∧ (trgSizeOf ty s.wireUsers ≤ s.inLen.toNat → s.wireUsers ≤ s.cfg.uiCap →
            (∃ j k, j < k ∧ k < s.wireUsers
              ∧ (parse (s.memRead (s.bufOff.toNat + 9 + j * recSize ty) (recSize ty)) ty).aid
                = (parse (s.memRead (s.bufOff.toNat + 9 + k * recSize ty) (recSize ty)) ty).aid) →
          exec .trgDecode s = .next { s with err := 3, lastOpc := 0x1A, resultLen := 0 }))

/-- R203: after a successful TRG_ENCODE the octet at o + 8 is UI_COUNT; after a successful TRG_DECODE UI_COUNT equals the
declared NUSERS and the table holds that many entries with distinct AIDs. -/
def Obligations.NumUsersEqualsTheListCardinality : Prop :=
  ∀ s t : State, s.Inv →
    (exec .trgEncode s = .next t → t.err = 0 →
      (t.octet (s.bufOff.toNat + 8)).toNat = t.ui.length ∧ t.readReg .uiCount = BitVec.ofNat 32 t.ui.length
        ∧ ∃ ty, s.trgType? = some ty ∧ t.resultLen.toNat = 9 + t.ui.length * recSize ty
          ∧ ∀ k < t.ui.length, ∃ e ∈ t.ui,
              t.memRead (s.bufOff.toNat + 9 + k * recSize ty) (recSize ty) = serialize e ty)
    ∧ (exec .trgDecode s = .next t → t.err = 0 →
      t.ui.length = (s.octet (s.bufOff.toNat + 8)).toNat ∧ (t.ui.map UiEntry.aid).Nodup
        ∧ t.readReg .uiCount = BitVec.ofNat 32 (s.octet (s.bufOff.toNat + 8)).toNat)

/-- R204: TRG_ENCODE then TRG_DECODE at the same place gives CI back and the table with the untransmitted staging bits 0:
the same set of entries, in the order the encode wrote them. The CI registers and the table may change in between. -/
def Obligations.TriggerRoundTrip : Prop :=
  ∀ (s : State) (ty : TrgType) (n : BitVec 13), s.fatal = false → s.cfg.WellFormed → s.TableOk →
    s.trgType? = some ty → trgSizeOf ty s.ui.length ≤ n.toNat →
    s.bufOff.toNat + n.toNat ≤ s.cfg.bufSize →
      ∃ t, exec .trgEncode s = .next t ∧ t.err = 0
        ∧ ∀ (ci : CommonInfo) (l : List UiEntry),
          ∃ u, exec .trgDecode { t with trgCi := ci, ui := l, inLen := n } = .next u ∧ u.err = 0
            ∧ u.trgCi = s.trgCi ∧ u.ui.length = s.ui.length
            ∧ u.ui = s.serial.map (fun e => parse (serialize e ty) ty)
            ∧ u.ui.Perm (s.ui.map (fun e => parse (serialize e ty) ty))

/-- R205: two tables with the same set of entries give bodies of the same length, and under AID_ASC identical octets. -/
def Obligations.BodyOfATableDoesNotDependOnItsOrder : Prop :=
  ∀ (s : State) (l : List UiEntry) (ty : TrgType), s.TableOk → l.Perm s.ui →
    (State.trgBody { s with ui := l } ty).length = (s.trgBody ty).length
    ∧ (s.cfg.uiOrder = .aidAsc → State.trgBody { s with ui := l } ty = s.trgBody ty)

/-- R206: for a recognized selector, a successful TRG_ENCODE writes exactly the RESULT_LEN that TRG_SIZE gives in the same
state. -/
def Obligations.TrgSizeAgreesWithTrgEncode : Prop :=
  ∀ (s t : State), s.fatal = false → exec .trgEncode s = .next t → t.err = 0 →
    ∃ u, exec .trgSize s = .next u ∧ u.err = 0 ∧ u.resultLen = t.resultLen

/-! ### The host assembler (30_encoding.md R132, R133) -/

/-- R133: `CMD <MNEMONIC>, <arg16>` writes the command's word to CMD, and `CMD <MNEMONIC>` the word with ARG 0. -/
def Obligations.CmdLinesWriteTheCommandWord : Prop :=
  (∀ i : Instr, assemble (.cmdArg i.mnemonic i.arg.toNat) = some [⟨.write, 0x010#13, .w32, encode i⟩])
  ∧ ∀ i : Instr, i.arg = 0 → assemble (.cmd i.mnemonic) = some [⟨.write, 0x010#13, .w32, encode i⟩]

/-- R133, R35, R110, R127: SETSEQ, SETQOS and SETUI write one register whose subfields are their operands, and refuse an
operand that does not fit. -/
def Obligations.PackingLinesFillTheSubfields : Prop :=
  (∀ seq frag : Nat, (seq < 4096 ∧ frag < 16 → ∃ v : Word,
      assemble (.setSeq seq frag) = some [⟨.write, 0x068#13, .w32, v⟩]
      ∧ (seqNumber (v.extractLsb' 0 16)).toNat = seq ∧ (seqFrag (v.extractLsb' 0 16)).toNat = frag)
    ∧ (¬ (seq < 4096 ∧ frag < 16) → assemble (.setSeq seq frag) = none))
  ∧ (∀ tid eosp ack amsdu txop : Nat,
      (tid < 16 ∧ eosp < 2 ∧ ack < 4 ∧ amsdu < 2 ∧ txop < 256 → ∃ v : Word,
        assemble (.setQos tid eosp ack amsdu txop) = some [⟨.write, 0x06C#13, .w32, v⟩]
        ∧ (qosTid (v.extractLsb' 0 16)).toNat = tid ∧ (qosEosp (v.extractLsb' 0 16)).toNat = eosp
        ∧ (qosAckPol (v.extractLsb' 0 16)).toNat = ack ∧ (qosAmsdu (v.extractLsb' 0 16)).toNat = amsdu
        ∧ (qosTxop (v.extractLsb' 0 16)).toNat = txop)
      ∧ (¬ (tid < 16 ∧ eosp < 2 ∧ ack < 4 ∧ amsdu < 2 ∧ txop < 256) →
        assemble (.setQos tid eosp ack amsdu txop) = none))
  ∧ (∀ aid ru coding mcs dcm ss : Nat,
      (aid < 4096 ∧ ru < 256 ∧ coding < 2 ∧ mcs < 16 ∧ dcm < 2 ∧ ss < 64 → ∃ v : Word,
        assemble (.setUi aid ru coding mcs dcm ss) = some [⟨.write, 0x110#13, .w32, v⟩]
        ∧ (UiEntry.aid ⟨0, v⟩).toNat = aid ∧ (UiEntry.ru ⟨0, v⟩).toNat = ru
        ∧ (UiEntry.coding ⟨0, v⟩).toNat = coding ∧ (UiEntry.mcs ⟨0, v⟩).toNat = mcs
        ∧ (UiEntry.dcm ⟨0, v⟩).toNat = dcm ∧ (UiEntry.ss ⟨0, v⟩).toNat = ss)
      ∧ (¬ (aid < 4096 ∧ ru < 256 ∧ coding < 2 ∧ mcs < 16 ∧ dcm < 2 ∧ ss < 64) →
        assemble (.setUi aid ru coding mcs dcm ss) = none))
end

