-- ==== Sys2Proof/Laws/PerInstr.lean ====
section
/-! SUPPORT. Per instruction: what its encoding holds (spec 30_encoding.md R90, R91). -/

namespace Sys2Proof

/-- A command word as a number: ARG above eight 0 bits above OPC (R90). -/
theorem toNat_commandWord (opc : BitVec 8) (arg : BitVec 16) :
    (commandWord opc arg).toNat = arg.toNat * 0x10000 + opc.toNat := by
  have := opc.isLt
  have h0 : (0#8 ++ opc).toNat = opc.toNat := by
    rw [BitVec.toNat_append]; simp
  have h1 : (commandWord opc arg) = (arg ++ (0#8 ++ opc) : BitVec 32) := by
    simp only [commandWord, BitVec.append_assoc]; rfl
  rw [h1, BitVec.toNat_append, h0, ← Nat.shiftLeft_add_eq_or_of_lt (by omega), Nat.shiftLeft_eq]

theorem toNat_cmdOpc (w : Word) : (cmdOpc w).toNat = w.toNat % 0x100 := by
  simp [cmdOpc, BitVec.extractLsb'_toNat]

theorem toNat_cmdRsv (w : Word) : (cmdRsv w).toNat = w.toNat / 0x100 % 0x100 := by
  simp [cmdRsv, BitVec.extractLsb'_toNat, Nat.shiftRight_eq_div_pow]

theorem toNat_cmdArg (w : Word) : (cmdArg w).toNat = w.toNat / 0x10000 := by
  have := w.isLt
  simp only [cmdArg, BitVec.extractLsb'_toNat, Nat.shiftRight_eq_div_pow]
  omega

theorem cmdOpc_commandWord (opc : BitVec 8) (arg : BitVec 16) : cmdOpc (commandWord opc arg) = opc := by
  have := opc.isLt
  apply BitVec.eq_of_toNat_eq
  rw [toNat_cmdOpc, toNat_commandWord]
  omega

theorem cmdRsv_commandWord (opc : BitVec 8) (arg : BitVec 16) : cmdRsv (commandWord opc arg) = 0 := by
  have := opc.isLt
  apply BitVec.eq_of_toNat_eq
  rw [toNat_cmdRsv, toNat_commandWord]
  change _ = 0
  omega

theorem cmdArg_commandWord (opc : BitVec 8) (arg : BitVec 16) : cmdArg (commandWord opc arg) = arg := by
  have := opc.isLt
  apply BitVec.eq_of_toNat_eq
  rw [toNat_cmdArg, toNat_commandWord]
  omega

/-- A word is legal when its three fields are (R134). -/
theorem legalWord_commandWord (opc : BitVec 8) (arg : BitVec 16)
    (h1 : opcAssigned opc.toNat = true) (h2 : argLegal opc.toNat arg.toNat = true) :
    legalWord (commandWord opc arg) = true := by
  have h := opc.isLt
  have e1 : (arg.toNat * 0x10000 + opc.toNat) % 0x100 = opc.toNat := by omega
  have e2 : (arg.toNat * 0x10000 + opc.toNat) / 0x100 % 0x100 = 0 := by omega
  have e3 : (arg.toNat * 0x10000 + opc.toNat) / 0x10000 = arg.toNat := by omega
  simp [legalWord, toNat_commandWord, e1, e2, e3, h1, h2]

/-- What the encoding of an instruction holds: its OPC, its ARG, RSV 0, and a legal word (R90, R91, R134). -/
def Laws.EncodingFields.Statement (i : Instr) : Prop :=
  cmdOpc (encode i) = i.opc ∧ cmdRsv (encode i) = 0 ∧ cmdArg (encode i) = i.arg ∧
    legalWord (encode i) = true

/-- The three fields of an encoding read back (R90). -/
theorem Laws.encodingFields_of_legal {i : Instr} (h1 : opcAssigned i.opc.toNat = true)
    (h2 : argLegal i.opc.toNat i.arg.toNat = true) : Laws.EncodingFields.Statement i :=
  ⟨cmdOpc_commandWord _ _, cmdRsv_commandWord _ _, cmdArg_commandWord _ _,
    legalWord_commandWord _ _ h1 h2⟩

theorem Laws.EncodingFields.nop : Laws.EncodingFields.Statement .nop :=
  Laws.encodingFields_of_legal (by decide) (by decide)

theorem Laws.EncodingFields.hdrSize : Laws.EncodingFields.Statement .hdrSize :=
  Laws.encodingFields_of_legal (by decide) (by decide)

theorem Laws.EncodingFields.hdrEncode : Laws.EncodingFields.Statement .hdrEncode :=
  Laws.encodingFields_of_legal (by decide) (by decide)

theorem Laws.EncodingFields.hdrDecode : Laws.EncodingFields.Statement .hdrDecode :=
  Laws.encodingFields_of_legal (by decide) (by decide)

theorem Laws.EncodingFields.addrResolve : Laws.EncodingFields.Statement .addrResolve :=
  Laws.encodingFields_of_legal (by decide) (by decide)

theorem Laws.EncodingFields.hdrClear : Laws.EncodingFields.Statement .hdrClear :=
  Laws.encodingFields_of_legal (by decide) (by decide)

theorem Laws.EncodingFields.uiClear : Laws.EncodingFields.Statement .uiClear :=
  Laws.encodingFields_of_legal (by decide) (by decide)

theorem Laws.EncodingFields.uiInsert : Laws.EncodingFields.Statement .uiInsert :=
  Laws.encodingFields_of_legal (by decide) (by decide)

theorem Laws.EncodingFields.uiRemove (aid : BitVec 12) : Laws.EncodingFields.Statement (.uiRemove aid) :=
  Laws.encodingFields_of_legal rfl (by
    have := aid.isLt
    simp only [argLegal, Instr.opc, Instr.mnemonic, Mnemonic.opc, Instr.arg, BitVec.toNat_setWidth]
    simp; omega)

theorem Laws.EncodingFields.uiLookup (aid : BitVec 12) : Laws.EncodingFields.Statement (.uiLookup aid) :=
  Laws.encodingFields_of_legal rfl (by
    have := aid.isLt
    simp only [argLegal, Instr.opc, Instr.mnemonic, Mnemonic.opc, Instr.arg, BitVec.toNat_setWidth]
    simp; omega)

theorem Laws.EncodingFields.uiRead (pos : BitVec 16) : Laws.EncodingFields.Statement (.uiRead pos) :=
  Laws.encodingFields_of_legal rfl rfl

theorem Laws.EncodingFields.trgSize : Laws.EncodingFields.Statement .trgSize :=
  Laws.encodingFields_of_legal (by decide) (by decide)

theorem Laws.EncodingFields.trgEncode : Laws.EncodingFields.Statement .trgEncode :=
  Laws.encodingFields_of_legal (by decide) (by decide)

theorem Laws.EncodingFields.trgDecode : Laws.EncodingFields.Statement .trgDecode :=
  Laws.encodingFields_of_legal (by decide) (by decide)

end Sys2Proof
end

