-- ==== Sys2Proof/Laws/Assembler.lean ====
section
/-! SUPPORT. The host assembler's field checks and command words (spec 30_encoding.md R132, R133). -/

namespace Sys2Proof.Machine

/-- An operand fits a field of `bits` bits (R133). -/
@[simp] theorem fits_iff (bits v : Nat) : fits bits v = true ↔ v < 2 ^ bits := by simp [fits]

/-- The number a `CMD` line packs is the command word (R90, R133). -/
theorem ofNat_packed (opc : BitVec 8) (arg : BitVec 16) :
    BitVec.ofNat 32 (arg.toNat * 2 ^ 16 + opc.toNat) = commandWord opc arg := by
  have h1 := arg.isLt
  have h2 := opc.isLt
  apply BitVec.eq_of_toNat_eq
  rw [toNat_commandWord, BitVec.toNat_ofNat]
  omega

end Sys2Proof.Machine
end

