-- ==== Sys2Proof/Laws/State.lean ====
section
/-! SUPPORT. One lemma per field per named update of State, so that no later proof unfolds an update. -/

namespace Sys2Proof.Machine

variable (s : State)

/-! ### complete (R222) -/

@[simp] theorem complete_cfg (n : Nat) : (complete n s).cfg = s.cfg := rfl
@[simp] theorem complete_err (n : Nat) : (complete n s).err = 0 := rfl
@[simp] theorem complete_fatal (n : Nat) : (complete n s).fatal = s.fatal := rfl
@[simp] theorem complete_fcause (n : Nat) : (complete n s).fcause = s.fcause := rfl
@[simp] theorem complete_lastOpc (n : Nat) : (complete n s).lastOpc = s.lastOpc := rfl
@[simp] theorem complete_bufOff (n : Nat) : (complete n s).bufOff = s.bufOff := rfl
@[simp] theorem complete_inLen (n : Nat) : (complete n s).inLen = s.inLen := rfl
@[simp] theorem complete_resultLen (n : Nat) : (complete n s).resultLen = BitVec.ofNat 13 n := rfl
@[simp] theorem complete_hdr (n : Nat) : (complete n s).hdr = s.hdr := rfl
@[simp] theorem complete_res (n : Nat) : (complete n s).res = s.res := rfl
@[simp] theorem complete_trgCi (n : Nat) : (complete n s).trgCi = s.trgCi := rfl
@[simp] theorem complete_ui (n : Nat) : (complete n s).ui = s.ui := rfl
@[simp] theorem complete_uiPos (n : Nat) : (complete n s).uiPos = s.uiPos := rfl
@[simp] theorem complete_uiW0 (n : Nat) : (complete n s).uiW0 = s.uiW0 := rfl
@[simp] theorem complete_uiW1 (n : Nat) : (complete n s).uiW1 = s.uiW1 := rfl
@[simp] theorem complete_fbuf (n : Nat) : (complete n s).fbuf = s.fbuf := rfl
@[simp] theorem complete_fbufEpoch (n : Nat) : (complete n s).fbufEpoch = s.fbufEpoch := rfl
@[simp] theorem complete_host (n : Nat) : (complete n s).host = s.host := rfl
@[simp] theorem complete_accessIndex (n : Nat) : (complete n s).accessIndex = s.accessIndex := rfl
@[simp] theorem complete_reads (n : Nat) : (complete n s).reads = s.reads := rfl

/-! ### raise (R222) -/

@[simp] theorem raise_cfg (r : Raise) : (raise r s).cfg = s.cfg := by cases r <;> rfl
@[simp] theorem raise_err (r : Raise) : (raise r s).err = r.code := by cases r <;> rfl
@[simp] theorem raise_fatal (r : Raise) : (raise r s).fatal = (r.cause.isSome || s.fatal) := by cases r <;> rfl
@[simp] theorem raise_fcause (r : Raise) : (raise r s).fcause = (r.cause.elim s.fcause FatalCause.code) := by cases r <;> rfl
@[simp] theorem raise_lastOpc (r : Raise) : (raise r s).lastOpc = s.lastOpc := by cases r <;> rfl
@[simp] theorem raise_bufOff (r : Raise) : (raise r s).bufOff = s.bufOff := by cases r <;> rfl
@[simp] theorem raise_inLen (r : Raise) : (raise r s).inLen = s.inLen := by cases r <;> rfl
@[simp] theorem raise_resultLen (r : Raise) : (raise r s).resultLen = 0 := by cases r <;> rfl
@[simp] theorem raise_hdr (r : Raise) : (raise r s).hdr = s.hdr := by cases r <;> rfl
@[simp] theorem raise_res (r : Raise) : (raise r s).res = s.res := by cases r <;> rfl
@[simp] theorem raise_trgCi (r : Raise) : (raise r s).trgCi = s.trgCi := by cases r <;> rfl
@[simp] theorem raise_ui (r : Raise) : (raise r s).ui = s.ui := by cases r <;> rfl
@[simp] theorem raise_uiPos (r : Raise) : (raise r s).uiPos = s.uiPos := by cases r <;> rfl
@[simp] theorem raise_uiW0 (r : Raise) : (raise r s).uiW0 = s.uiW0 := by cases r <;> rfl
@[simp] theorem raise_uiW1 (r : Raise) : (raise r s).uiW1 = s.uiW1 := by cases r <;> rfl
@[simp] theorem raise_fbuf (r : Raise) : (raise r s).fbuf = s.fbuf := by cases r <;> rfl
@[simp] theorem raise_fbufEpoch (r : Raise) : (raise r s).fbufEpoch = s.fbufEpoch := by cases r <;> rfl
@[simp] theorem raise_host (r : Raise) : (raise r s).host = s.host := by cases r <;> rfl
@[simp] theorem raise_accessIndex (r : Raise) : (raise r s).accessIndex = s.accessIndex := by cases r <;> rfl
@[simp] theorem raise_reads (r : Raise) : (raise r s).reads = s.reads := by cases r <;> rfl

/-! ### withLastOpc (R227) -/

@[simp] theorem withLastOpc_cfg (opc : BitVec 8) : (s.withLastOpc opc).cfg = s.cfg := rfl
@[simp] theorem withLastOpc_err (opc : BitVec 8) : (s.withLastOpc opc).err = s.err := rfl
@[simp] theorem withLastOpc_fatal (opc : BitVec 8) : (s.withLastOpc opc).fatal = s.fatal := rfl
@[simp] theorem withLastOpc_fcause (opc : BitVec 8) : (s.withLastOpc opc).fcause = s.fcause := rfl
@[simp] theorem withLastOpc_lastOpc (opc : BitVec 8) : (s.withLastOpc opc).lastOpc = opc := rfl
@[simp] theorem withLastOpc_bufOff (opc : BitVec 8) : (s.withLastOpc opc).bufOff = s.bufOff := rfl
@[simp] theorem withLastOpc_inLen (opc : BitVec 8) : (s.withLastOpc opc).inLen = s.inLen := rfl
@[simp] theorem withLastOpc_resultLen (opc : BitVec 8) : (s.withLastOpc opc).resultLen = s.resultLen := rfl
@[simp] theorem withLastOpc_hdr (opc : BitVec 8) : (s.withLastOpc opc).hdr = s.hdr := rfl
@[simp] theorem withLastOpc_res (opc : BitVec 8) : (s.withLastOpc opc).res = s.res := rfl
@[simp] theorem withLastOpc_trgCi (opc : BitVec 8) : (s.withLastOpc opc).trgCi = s.trgCi := rfl
@[simp] theorem withLastOpc_ui (opc : BitVec 8) : (s.withLastOpc opc).ui = s.ui := rfl
@[simp] theorem withLastOpc_uiPos (opc : BitVec 8) : (s.withLastOpc opc).uiPos = s.uiPos := rfl
@[simp] theorem withLastOpc_uiW0 (opc : BitVec 8) : (s.withLastOpc opc).uiW0 = s.uiW0 := rfl
@[simp] theorem withLastOpc_uiW1 (opc : BitVec 8) : (s.withLastOpc opc).uiW1 = s.uiW1 := rfl
@[simp] theorem withLastOpc_fbuf (opc : BitVec 8) : (s.withLastOpc opc).fbuf = s.fbuf := rfl
@[simp] theorem withLastOpc_fbufEpoch (opc : BitVec 8) : (s.withLastOpc opc).fbufEpoch = s.fbufEpoch := rfl
@[simp] theorem withLastOpc_host (opc : BitVec 8) : (s.withLastOpc opc).host = s.host := rfl
@[simp] theorem withLastOpc_accessIndex (opc : BitVec 8) : (s.withLastOpc opc).accessIndex = s.accessIndex := rfl
@[simp] theorem withLastOpc_reads (opc : BitVec 8) : (s.withLastOpc opc).reads = s.reads := rfl

/-! ### writeOctets (R11) -/

@[simp] theorem writeOctets_cfg (a : Nat) (bs : List Byte) : (s.writeOctets a bs).cfg = s.cfg := rfl
@[simp] theorem writeOctets_err (a : Nat) (bs : List Byte) : (s.writeOctets a bs).err = s.err := rfl
@[simp] theorem writeOctets_fatal (a : Nat) (bs : List Byte) : (s.writeOctets a bs).fatal = s.fatal := rfl
@[simp] theorem writeOctets_fcause (a : Nat) (bs : List Byte) : (s.writeOctets a bs).fcause = s.fcause := rfl
@[simp] theorem writeOctets_lastOpc (a : Nat) (bs : List Byte) : (s.writeOctets a bs).lastOpc = s.lastOpc := rfl
@[simp] theorem writeOctets_bufOff (a : Nat) (bs : List Byte) : (s.writeOctets a bs).bufOff = s.bufOff := rfl
@[simp] theorem writeOctets_inLen (a : Nat) (bs : List Byte) : (s.writeOctets a bs).inLen = s.inLen := rfl
@[simp] theorem writeOctets_resultLen (a : Nat) (bs : List Byte) : (s.writeOctets a bs).resultLen = s.resultLen := rfl
@[simp] theorem writeOctets_hdr (a : Nat) (bs : List Byte) : (s.writeOctets a bs).hdr = s.hdr := rfl
@[simp] theorem writeOctets_res (a : Nat) (bs : List Byte) : (s.writeOctets a bs).res = s.res := rfl
@[simp] theorem writeOctets_trgCi (a : Nat) (bs : List Byte) : (s.writeOctets a bs).trgCi = s.trgCi := rfl
@[simp] theorem writeOctets_ui (a : Nat) (bs : List Byte) : (s.writeOctets a bs).ui = s.ui := rfl
@[simp] theorem writeOctets_uiPos (a : Nat) (bs : List Byte) : (s.writeOctets a bs).uiPos = s.uiPos := rfl
@[simp] theorem writeOctets_uiW0 (a : Nat) (bs : List Byte) : (s.writeOctets a bs).uiW0 = s.uiW0 := rfl
@[simp] theorem writeOctets_uiW1 (a : Nat) (bs : List Byte) : (s.writeOctets a bs).uiW1 = s.uiW1 := rfl
@[simp] theorem writeOctets_fbuf (a : Nat) (bs : List Byte) : (s.writeOctets a bs).fbuf = Memory.writeOctets s.fbuf a bs := rfl
@[simp] theorem writeOctets_fbufEpoch (a : Nat) (bs : List Byte) : (s.writeOctets a bs).fbufEpoch = s.fbufEpoch := rfl
@[simp] theorem writeOctets_host (a : Nat) (bs : List Byte) : (s.writeOctets a bs).host = s.host := rfl
@[simp] theorem writeOctets_accessIndex (a : Nat) (bs : List Byte) : (s.writeOctets a bs).accessIndex = s.accessIndex := rfl
@[simp] theorem writeOctets_reads (a : Nat) (bs : List Byte) : (s.writeOctets a bs).reads = s.reads := rfl

/-! ### memWrite (R11) -/

@[simp] theorem memWrite_cfg (a n v : Nat) : (s.memWrite a n v).cfg = s.cfg := rfl
@[simp] theorem memWrite_err (a n v : Nat) : (s.memWrite a n v).err = s.err := rfl
@[simp] theorem memWrite_fatal (a n v : Nat) : (s.memWrite a n v).fatal = s.fatal := rfl
@[simp] theorem memWrite_fcause (a n v : Nat) : (s.memWrite a n v).fcause = s.fcause := rfl
@[simp] theorem memWrite_lastOpc (a n v : Nat) : (s.memWrite a n v).lastOpc = s.lastOpc := rfl
@[simp] theorem memWrite_bufOff (a n v : Nat) : (s.memWrite a n v).bufOff = s.bufOff := rfl
@[simp] theorem memWrite_inLen (a n v : Nat) : (s.memWrite a n v).inLen = s.inLen := rfl
@[simp] theorem memWrite_resultLen (a n v : Nat) : (s.memWrite a n v).resultLen = s.resultLen := rfl
@[simp] theorem memWrite_hdr (a n v : Nat) : (s.memWrite a n v).hdr = s.hdr := rfl
@[simp] theorem memWrite_res (a n v : Nat) : (s.memWrite a n v).res = s.res := rfl
@[simp] theorem memWrite_trgCi (a n v : Nat) : (s.memWrite a n v).trgCi = s.trgCi := rfl
@[simp] theorem memWrite_ui (a n v : Nat) : (s.memWrite a n v).ui = s.ui := rfl
@[simp] theorem memWrite_uiPos (a n v : Nat) : (s.memWrite a n v).uiPos = s.uiPos := rfl
@[simp] theorem memWrite_uiW0 (a n v : Nat) : (s.memWrite a n v).uiW0 = s.uiW0 := rfl
@[simp] theorem memWrite_uiW1 (a n v : Nat) : (s.memWrite a n v).uiW1 = s.uiW1 := rfl
@[simp] theorem memWrite_fbuf (a n v : Nat) : (s.memWrite a n v).fbuf = Memory.writeOctets s.fbuf a (toOctets n v) := rfl
@[simp] theorem memWrite_fbufEpoch (a n v : Nat) : (s.memWrite a n v).fbufEpoch = s.fbufEpoch := rfl
@[simp] theorem memWrite_host (a n v : Nat) : (s.memWrite a n v).host = s.host := rfl
@[simp] theorem memWrite_accessIndex (a n v : Nat) : (s.memWrite a n v).accessIndex = s.accessIndex := rfl
@[simp] theorem memWrite_reads (a n v : Nat) : (s.memWrite a n v).reads = s.reads := rfl

/-! ### stage (R190, R192) -/

@[simp] theorem stage_cfg (e : UiEntry) (k : Nat) : (s.stage e k).cfg = s.cfg := rfl
@[simp] theorem stage_err (e : UiEntry) (k : Nat) : (s.stage e k).err = s.err := rfl
@[simp] theorem stage_fatal (e : UiEntry) (k : Nat) : (s.stage e k).fatal = s.fatal := rfl
@[simp] theorem stage_fcause (e : UiEntry) (k : Nat) : (s.stage e k).fcause = s.fcause := rfl
@[simp] theorem stage_lastOpc (e : UiEntry) (k : Nat) : (s.stage e k).lastOpc = s.lastOpc := rfl
@[simp] theorem stage_bufOff (e : UiEntry) (k : Nat) : (s.stage e k).bufOff = s.bufOff := rfl
@[simp] theorem stage_inLen (e : UiEntry) (k : Nat) : (s.stage e k).inLen = s.inLen := rfl
@[simp] theorem stage_resultLen (e : UiEntry) (k : Nat) : (s.stage e k).resultLen = s.resultLen := rfl
@[simp] theorem stage_hdr (e : UiEntry) (k : Nat) : (s.stage e k).hdr = s.hdr := rfl
@[simp] theorem stage_res (e : UiEntry) (k : Nat) : (s.stage e k).res = s.res := rfl
@[simp] theorem stage_trgCi (e : UiEntry) (k : Nat) : (s.stage e k).trgCi = s.trgCi := rfl
@[simp] theorem stage_ui (e : UiEntry) (k : Nat) : (s.stage e k).ui = s.ui := rfl
@[simp] theorem stage_uiPos (e : UiEntry) (k : Nat) : (s.stage e k).uiPos = BitVec.ofNat 8 k := rfl
@[simp] theorem stage_uiW0 (e : UiEntry) (k : Nat) : (s.stage e k).uiW0 = e.w0 := rfl
@[simp] theorem stage_uiW1 (e : UiEntry) (k : Nat) : (s.stage e k).uiW1 = e.w1 := rfl
@[simp] theorem stage_fbuf (e : UiEntry) (k : Nat) : (s.stage e k).fbuf = s.fbuf := rfl
@[simp] theorem stage_fbufEpoch (e : UiEntry) (k : Nat) : (s.stage e k).fbufEpoch = s.fbufEpoch := rfl
@[simp] theorem stage_host (e : UiEntry) (k : Nat) : (s.stage e k).host = s.host := rfl
@[simp] theorem stage_accessIndex (e : UiEntry) (k : Nat) : (s.stage e k).accessIndex = s.accessIndex := rfl
@[simp] theorem stage_reads (e : UiEntry) (k : Nat) : (s.stage e k).reads = s.reads := rfl

/-! ### resetEvent (R250) -/

@[simp] theorem resetEvent_cfg : (resetEvent s).cfg = s.cfg := rfl
@[simp] theorem resetEvent_err : (resetEvent s).err = 0 := rfl
@[simp] theorem resetEvent_fatal : (resetEvent s).fatal = false := rfl
@[simp] theorem resetEvent_fcause : (resetEvent s).fcause = 0 := rfl
@[simp] theorem resetEvent_lastOpc : (resetEvent s).lastOpc = 0 := rfl
@[simp] theorem resetEvent_bufOff : (resetEvent s).bufOff = 0 := rfl
@[simp] theorem resetEvent_inLen : (resetEvent s).inLen = 0 := rfl
@[simp] theorem resetEvent_resultLen : (resetEvent s).resultLen = 0 := rfl
@[simp] theorem resetEvent_hdr : (resetEvent s).hdr = .zero := rfl
@[simp] theorem resetEvent_res : (resetEvent s).res = .zero := rfl
@[simp] theorem resetEvent_trgCi : (resetEvent s).trgCi = 0 := rfl
@[simp] theorem resetEvent_ui : (resetEvent s).ui = [] := rfl
@[simp] theorem resetEvent_uiPos : (resetEvent s).uiPos = 0 := rfl
@[simp] theorem resetEvent_uiW0 : (resetEvent s).uiW0 = 0 := rfl
@[simp] theorem resetEvent_uiW1 : (resetEvent s).uiW1 = 0 := rfl
@[simp] theorem resetEvent_fbuf : (resetEvent s).fbuf = [] := rfl
@[simp] theorem resetEvent_fbufEpoch : (resetEvent s).fbufEpoch = s.fbufEpoch + 1 := rfl
@[simp] theorem resetEvent_host : (resetEvent s).host = s.host := rfl
@[simp] theorem resetEvent_accessIndex : (resetEvent s).accessIndex = s.accessIndex := rfl
@[simp] theorem resetEvent_reads : (resetEvent s).reads = s.reads := rfl

end Sys2Proof.Machine
end

