-- ==== Sys2Proof/Laws/Memory.lean ====
section
/-! SUPPORT. What FBUF's operations can do: read after write, the canonical form kept, and the little-endian conversions (spec 00_scope.md R11, 30_encoding.md R92). -/

namespace Sys2Proof.Machine

/-! ### One octet -/

theorem Memory.read?_write (m : Memory) (a : Nat) (b : Byte) (x : Nat) :
    Memory.read? (Memory.write m a b) x = if x = a then some b else Memory.read? m x := by
  induction m with
  | nil => simp [Memory.write, Memory.read?]
  | cons c m ih =>
    obtain ⟨k, c⟩ := c
    simp only [Memory.write]
    split
    · simp [Memory.read?]
    · split
      · subst_vars
        by_cases h : x = k <;> simp [Memory.read?, h]
      · simp only [Memory.read?, ih]
        by_cases h : x = k
        · subst h
          have : x ≠ a := fun e => by omega
          simp [this]
        · simp [h]

theorem Memory.mem_write {m : Memory} {a : Nat} {b : Byte} {c : Host.Cell}
    (h : c ∈ Memory.write m a b) : c = (a, b) ∨ c ∈ m := by
  induction m with
  | nil => simpa [Memory.write] using h
  | cons d m ih =>
    obtain ⟨k, d⟩ := d
    simp only [Memory.write] at h
    split at h
    · simpa using h
    · split at h <;> simp only [List.mem_cons] at h ⊢
      · rcases h with h | h <;> simp [h]
      · rcases h with h | h
        · simp [h]
        · rcases ih h with h | h <;> simp [h]

theorem Memory.wf_nil : Memory.wf [] := by decide

/-- A write keeps the canonical form. -/
theorem Memory.wf_write {m : Memory} (h : Memory.wf m) (a : Nat) (b : Byte) :
    Memory.wf (Memory.write m a b) := by
  induction m with
  | nil => simp [Memory.write, Memory.wf]
  | cons c m ih =>
    obtain ⟨k, c⟩ := c
    simp only [Memory.wf, List.map_cons, List.pairwise_cons, List.mem_map] at h ih ⊢
    obtain ⟨h1, h2⟩ := h
    simp only [Memory.write]
    split
    · rename_i hlt
      simp only [List.map_cons, List.pairwise_cons, List.mem_cons, List.mem_map]
      refine ⟨?_, h1, h2⟩
      rintro x (rfl | hx)
      · exact hlt
      · exact lt_trans hlt (h1 x hx)
    · split
      · subst_vars
        exact List.pairwise_cons.2 ⟨fun x hx => h1 x (by simpa using hx), h2⟩
      · simp only [List.map_cons, List.pairwise_cons, List.mem_map]
        refine ⟨?_, ih h2⟩
        rintro x ⟨d, hd, rfl⟩
        rcases Memory.mem_write hd with rfl | hd
        · simp only; omega
        · exact h1 _ ⟨d, hd, rfl⟩

/-! ### An octet sequence -/

theorem Memory.wf_writeOctets {m : Memory} (h : Memory.wf m) (a : Nat) (bs : List Byte) :
    Memory.wf (Memory.writeOctets m a bs) := by
  induction bs generalizing m a with
  | nil => exact h
  | cons b bs ih => exact ih (Memory.wf_write h a b) (a + 1)

/-- Every cell after a write of octets is an old one or lies in the written range. -/
theorem Memory.mem_writeOctets {m : Memory} {a : Nat} {bs : List Byte} {c : Host.Cell}
    (h : c ∈ Memory.writeOctets m a bs) : c ∈ m ∨ (a ≤ c.1 ∧ c.1 < a + bs.length) := by
  induction bs generalizing m a with
  | nil => exact .inl h
  | cons b bs ih =>
    rcases ih h with h | h
    · rcases Memory.mem_write h with rfl | h
      · right; simp
      · exact .inl h
    · right; simp only [List.length_cons]; omega

theorem Memory.read?_writeOctets_outside (m : Memory) (a : Nat) (bs : List Byte) (x : Nat)
    (h : x < a ∨ a + bs.length ≤ x) :
    Memory.read? (Memory.writeOctets m a bs) x = Memory.read? m x := by
  induction bs generalizing m a with
  | nil => rfl
  | cons b bs ih =>
    simp only [List.length_cons] at h
    rw [Memory.writeOctets, ih _ _ (by omega), Memory.read?_write, if_neg (by omega)]

theorem Memory.read?_writeOctets_inside (m : Memory) (a : Nat) (bs : List Byte) (i : Nat)
    (h : i < bs.length) :
    Memory.read? (Memory.writeOctets m a bs) (a + i) = some bs[i] := by
  induction bs generalizing m a i with
  | nil => simp at h
  | cons b bs ih =>
    cases i with
    | zero =>
      rw [Memory.writeOctets, Memory.read?_writeOctets_outside _ _ _ _ (by omega), Memory.read?_write]
      simp
    | succ i =>
      have := ih (Memory.write m a b) (a + 1) i (by simpa using h)
      rw [Memory.writeOctets]
      simpa [Nat.add_comm, Nat.add_left_comm] using this

/-! ### FBUF as the state holds it -/

/-- An octet outside the written range reads as before. -/
theorem octet_writeOctets_outside (s : State) (a : Nat) (bs : List Byte) (x : Nat)
    (h : x < a ∨ a + bs.length ≤ x) : (s.writeOctets a bs).octet x = s.octet x := by
  simp [State.octet, Memory.read?_writeOctets_outside _ _ _ _ h]

/-- An octet inside the written range reads what was written. -/
theorem octet_writeOctets_inside (s : State) (a : Nat) (bs : List Byte) (i : Nat) (h : i < bs.length) :
    (s.writeOctets a bs).octet (a + i) = bs[i] := by
  simp [State.octet, Memory.read?_writeOctets_inside _ _ _ _ h]

/-- Octets depend on FBUF and the reset that drew it alone. -/
theorem octet_congr {s t : State} (hm : t.fbuf = s.fbuf) (he : t.fbufEpoch = s.fbufEpoch) (a : Nat) :
    t.octet a = s.octet a := by simp [State.octet, hm, he]

@[simp] theorem length_octets (s : State) (a n : Nat) : (s.octets a n).length = n := by
  induction n generalizing a with
  | zero => rfl
  | succ n ih => simp [State.octets, ih]

@[simp] theorem getElem_octets (s : State) (a n i : Nat) (h : i < (s.octets a n).length) :
    (s.octets a n)[i] = s.octet (a + i) := by
  induction n generalizing a i with
  | zero => simp at h
  | succ n ih =>
    cases i with
    | zero => simp [State.octets]
    | succ i => simp [State.octets, ih, Nat.add_comm, Nat.add_left_comm]

theorem octets_ext {s t : State} {a n : Nat} (h : ∀ i < n, t.octet (a + i) = s.octet (a + i)) :
    t.octets a n = s.octets a n :=
  List.ext_getElem (by simp) (fun i h1 _ => by simpa using h i (by simpa using h1))

theorem memRead_ext {s t : State} {a n : Nat} (h : ∀ i < n, t.octet (a + i) = s.octet (a + i)) :
    t.memRead a n = s.memRead a n := by rw [State.memRead, octets_ext h, State.memRead]

/-- `MemRead` depends on FBUF and the reset that drew it alone. -/
theorem memRead_congr {s t : State} (hm : t.fbuf = s.fbuf) (he : t.fbufEpoch = s.fbufEpoch) (a n : Nat) :
    t.memRead a n = s.memRead a n := memRead_ext fun _ _ => octet_congr hm he _

@[simp] theorem octet_withLastOpc (s : State) (opc : BitVec 8) (a : Nat) :
    (s.withLastOpc opc).octet a = s.octet a := octet_congr rfl rfl a

@[simp] theorem memRead_withLastOpc (s : State) (opc : BitVec 8) (a n : Nat) :
    (s.withLastOpc opc).memRead a n = s.memRead a n :=
  memRead_congr (s := s) (t := s.withLastOpc opc) rfl rfl a n

@[simp] theorem octet_complete (s : State) (n a : Nat) : (complete n s).octet a = s.octet a :=
  octet_congr rfl rfl a

@[simp] theorem memRead_complete (s : State) (k a n : Nat) : (complete k s).memRead a n = s.memRead a n :=
  memRead_congr (s := s) (t := complete k s) rfl rfl a n

@[simp] theorem octet_raise (s : State) (r : Raise) (a : Nat) : (raise r s).octet a = s.octet a :=
  octet_congr (by simp) (by simp) a

/-- `MemRead` of a longer range. -/
theorem octets_append (s : State) (a m n : Nat) :
    s.octets a (m + n) = s.octets a m ++ s.octets (a + m) n := by
  induction m generalizing a with
  | zero => simp [State.octets]
  | succ m ih =>
    rw [show m + 1 + n = (m + n) + 1 by omega]
    simp only [State.octets, ih, List.cons_append]
    rw [show a + 1 + m = a + (m + 1) by omega]

theorem memRead_one (s : State) (a : Nat) : s.memRead a 1 = (s.octet a).toNat := by
  simp [State.memRead, State.octets, ofOctets]

/-- Reading back a written octet sequence. -/
theorem octets_writeOctets (s : State) (a : Nat) (bs : List Byte) :
    (s.writeOctets a bs).octets a bs.length = bs :=
  List.ext_getElem (by simp) (fun i _ h2 => by simpa using octet_writeOctets_inside s a bs i h2)

/-! ### Little-endian conversions (R92) -/

@[simp] theorem length_toOctets (n v : Nat) : (toOctets n v).length = n := by
  induction n generalizing v with
  | zero => rfl
  | succ n ih => simp [toOctets, ih]

theorem getElem_toOctets (n v i : Nat) (h : i < (toOctets n v).length) :
    (toOctets n v)[i] = BitVec.ofNat 8 (v / 256 ^ i) := by
  induction n generalizing v i with
  | zero => simp at h
  | succ n ih =>
    cases i with
    | zero => simp [toOctets]
    | succ i => simp [toOctets, ih, Nat.div_div_eq_div_mul, pow_succ, Nat.mul_comm]

theorem ofOctets_lt (bs : List Byte) : ofOctets bs < 256 ^ bs.length := by
  induction bs with
  | nil => simp [ofOctets]
  | cons b bs ih =>
    have := b.isLt
    simp only [ofOctets, List.length_cons, pow_succ]
    omega

/-- Octets made from an integer and read back give its low part. -/
theorem ofOctets_toOctets (n v : Nat) : ofOctets (toOctets n v) = v % 256 ^ n := by
  induction n generalizing v with
  | zero => simp [toOctets, ofOctets, Nat.mod_one]
  | succ n ih =>
    simp only [toOctets, ofOctets, ih, BitVec.toNat_ofNat]
    rw [show 256 ^ (n + 1) = 256 * 256 ^ n by ring, Nat.mod_mul]

/-- A value read from `n` octets is below `256 ^ n`. -/
theorem memRead_lt (s : State) (a n : Nat) : s.memRead a n < 256 ^ n := by
  simpa [State.memRead] using ofOctets_lt (s.octets a n)

/-- `MemRead` after `MemWrite` at the same place (R11). -/
theorem memRead_memWrite (s : State) (a n v : Nat) : (s.memWrite a n v).memRead a n = v % 256 ^ n := by
  have := octets_writeOctets s a (toOctets n v)
  rw [length_toOctets] at this
  rw [State.memRead, State.memWrite, this, ofOctets_toOctets]

/-- `MemWrite` leaves every octet outside its range alone (R11). -/
theorem octet_memWrite_outside (s : State) (a n v x : Nat) (h : x < a ∨ a + n ≤ x) :
    (s.memWrite a n v).octet x = s.octet x :=
  octet_writeOctets_outside s a _ x (by simpa using h)

/-- `MemWrite` sets octet `a + i` to bits `8i+7..8i` of the value (R11). -/
theorem octet_memWrite_inside (s : State) (a n v i : Nat) (h : i < n) :
    (s.memWrite a n v).octet (a + i) = BitVec.ofNat 8 (v / 256 ^ i) := by
  rw [State.memWrite, octet_writeOctets_inside s a _ i (by simpa using h), getElem_toOctets]

/-- `MemRead` at a place that a write does not touch (R11). -/
theorem memRead_writeOctets_outside (s : State) (a : Nat) (bs : List Byte) (x n : Nat)
    (h : x + n ≤ a ∨ a + bs.length ≤ x) : (s.writeOctets a bs).memRead x n = s.memRead x n :=
  memRead_ext fun i hi => octet_writeOctets_outside s a bs (x + i) (by omega)

/-- Reading back a part of a written octet sequence. -/
theorem memRead_writeOctets_part (s : State) (o : Nat) (p q r : List Byte) :
    (s.writeOctets o (p ++ q ++ r)).memRead (o + p.length) q.length = ofOctets q := by
  have h := octets_writeOctets s o (p ++ q ++ r)
  simp only [List.length_append] at h
  rw [octets_append, octets_append] at h
  have h1 := (List.append_inj h (by simp)).1
  rw [State.memRead, (List.append_inj h1 (by simp)).2]

theorem toOctets_add (m n v : Nat) :
    toOctets (m + n) v = toOctets m v ++ toOctets n (v / 256 ^ m) := by
  induction m generalizing v with
  | zero => simp [toOctets]
  | succ m ih =>
    rw [show m + 1 + n = (m + n) + 1 by omega]
    simp [toOctets, ih, Nat.div_div_eq_div_mul, pow_succ, Nat.mul_comm]

end Sys2Proof.Machine
end

