-- ==== Sys2Proof/Laws/Ops.lean ====
section
/-! SUPPORT. What a command, an access and a step can do, said once each (spec 60_exceptions.md R222, R227; 20_memory.md R60 to R66). -/

namespace Sys2Proof.Machine

/-! ### Commands -/

/-- The body of a command (R227: "run the command of w[7:0]"). -/
def bodyOf : Instr → Body
  | .nop => nopBody
  | .hdrSize => hdrSizeBody
  | .hdrEncode => hdrEncodeBody
  | .hdrDecode => hdrDecodeBody
  | .addrResolve => addrResolveBody
  | .hdrClear => hdrClearBody
  | .uiClear => uiClearBody
  | .uiInsert => uiInsertBody
  | .uiRemove aid => uiRemoveBody aid
  | .uiLookup aid => uiLookupBody aid
  | .uiRead pos => uiReadBody pos
  | .trgSize => trgSizeBody
  | .trgEncode => trgEncodeBody
  | .trgDecode => trgDecodeBody

/-- Every command is the prologue over its body: no command stops. -/
theorem exec_eq (i : Instr) (s : State) : exec i s = .next (runCommand i.opc (bodyOf i) s) := by
  cases i <;> rfl

/-- A command refused because FATAL is latched (R227). -/
theorem runCommand_of_fatal {s : State} (h : s.fatal = true) (opc : BitVec 8) (b : Body) :
    runCommand opc b s = { s with err := 8, lastOpc := opc, resultLen := 0 } := by
  simp [runCommand, h, raise, Raise.cause, Raise.code, State.withLastOpc]

/-- A command whose body completes (R222). -/
theorem runCommand_of_ok {s s' : State} {opc : BitVec 8} {b : Body} {n : Nat} (h : s.fatal = false)
    (hb : b (s.withLastOpc opc) = .ok (s', n)) : runCommand opc b s = complete n s' := by
  simp [runCommand, h, hb]

/-- A command whose body raises (R222, R225). -/
theorem runCommand_of_error {s : State} {opc : BitVec 8} {b : Body} {r : Raise} (h : s.fatal = false)
    (hb : b (s.withLastOpc opc) = .error r) :
    runCommand opc b s = raise r (s.withLastOpc opc) := by
  simp [runCommand, h, hb]

/-- Everything a command can do: it is refused, it completes, or it raises. -/
theorem runCommand_cases (opc : BitVec 8) (b : Body) (s : State) :
    (s.fatal = true ∧ runCommand opc b s = { s with err := 8, lastOpc := opc, resultLen := 0 }) ∨
    (∃ s' n, s.fatal = false ∧ b (s.withLastOpc opc) = .ok (s', n) ∧
      runCommand opc b s = complete n s') ∨
    (∃ r, s.fatal = false ∧ b (s.withLastOpc opc) = .error r ∧
      runCommand opc b s = raise r (s.withLastOpc opc)) := by
  rcases Bool.eq_false_or_eq_true s.fatal with hf | hf
  · exact .inl ⟨hf, runCommand_of_fatal hf opc b⟩
  · rcases hb : b (s.withLastOpc opc) with r | ⟨s', n⟩
    · exact .inr (.inr ⟨r, hf, rfl, runCommand_of_error hf hb⟩)
    · exact .inr (.inl ⟨s', n, hf, rfl, runCommand_of_ok hf hb⟩)

/-- A raise that is not Fatal writes ERR and RESULT_LEN alone (R222). -/
theorem raise_of_cause_none {r : Raise} (h : r.cause = none) (s : State) :
    raise r s = { s with err := r.code, resultLen := 0 } := by simp [raise, h]

/-- A Fatal raise also latches FATAL and its cause (R226). -/
theorem raise_fatal_eq (c : FatalCause) (s : State) :
    raise (.fatal c) s = { s with err := 10, fatal := true, fcause := c.code, resultLen := 0 } := rfl

/-! ### Inversion of the bodies: what each answers when it completes -/

theorem nopBody_ok {s s' : State} {n : Nat} (h : nopBody s = .ok (s', n)) : s' = s ∧ n = 0 := by
  simpa [nopBody, eq_comm] using h

theorem hdrSizeBody_ok {s s' : State} {n : Nat} (h : hdrSizeBody s = .ok (s', n)) :
    recognized s.cfg s.hdr.fc = true ∧ s' = s ∧ n = hdrSize s.hdr.fc := by
  unfold hdrSizeBody at h
  split at h
  · simp only [Except.ok.injEq, Prod.mk.injEq] at h
    exact ⟨‹_›, h.1.symm, h.2.symm⟩
  · simp at h

theorem hdrEncodeBody_ok {s s' : State} {n : Nat} (h : hdrEncodeBody s = .ok (s', n)) :
    recognized s.cfg s.hdr.fc = true ∧ s.bufOff.toNat + hdrSize s.hdr.fc ≤ s.cfg.bufSize ∧
      s' = s.writeFields s.bufOff.toNat s.hdr (layout s.hdr.fc) ∧ n = hdrSize s.hdr.fc := by
  unfold hdrEncodeBody at h
  split at h
  · split at h
    · simp at h
    · simp only [Except.ok.injEq, Prod.mk.injEq] at h
      exact ⟨‹_›, by omega, h.1.symm, h.2.symm⟩
  · simp at h

theorem hdrDecodeBody_ok {s s' : State} {n : Nat} (h : hdrDecodeBody s = .ok (s', n)) :
    s.bufOff.toNat + s.inLen.toNat ≤ s.cfg.bufSize ∧ recognized s.cfg s.wireFc = true ∧
      hdrSize s.wireFc ≤ s.inLen.toNat ∧ n = hdrSize s.wireFc ∧
      s' = { s with hdr := s.readFields s.bufOff.toNat .zero (layout s.wireFc) } := by
  unfold hdrDecodeBody at h
  split at h
  · simp at h
  split at h
  · simp at h
  split at h
  · simp at h
  split at h
  · simp at h
  split at h
  · simp at h
  simp only [Except.ok.injEq, Prod.mk.injEq] at h
  exact ⟨by omega, by simp_all, by omega, h.2.symm, h.1.symm⟩

theorem addrResolveBody_ok {s s' : State} {n : Nat} (h : addrResolveBody s = .ok (s', n)) :
    recognized s.cfg s.hdr.fc = true ∧ isData s.hdr.fc = true ∧
      s' = { s with res := resolve s.hdr } ∧ n = 0 := by
  unfold addrResolveBody at h
  split at h
  · split at h <;> simp_all
  · simp at h

theorem hdrClearBody_ok {s s' : State} {n : Nat} (h : hdrClearBody s = .ok (s', n)) :
    s' = { s with hdr := .zero } ∧ n = 0 := by
  simpa [hdrClearBody, eq_comm] using h

theorem uiClearBody_ok {s s' : State} {n : Nat} (h : uiClearBody s = .ok (s', n)) :
    s' = { s with ui := [], uiPos := 0 } ∧ n = 0 := by
  simpa [uiClearBody, eq_comm] using h

theorem uiInsertBody_ok {s s' : State} {n : Nat} (h : uiInsertBody s = .ok (s', n)) :
    n = 0 ∧ ((∃ i, findAid s.ui s.staged.aid = some i ∧ s' = { s with ui := s.ui.set i s.staged }) ∨
      (findAid s.ui s.staged.aid = none ∧ s.uiCount ≠ s.cfg.uiCap ∧
        s' = { s with ui := s.ui ++ [s.staged] })) := by
  unfold uiInsertBody at h
  split at h
  · simp_all
  · split at h <;> simp_all

theorem uiRemoveBody_ok {aid : BitVec 12} {s s' : State} {n : Nat}
    (h : uiRemoveBody aid s = .ok (s', n)) :
    n = 0 ∧ ∃ i, findAid s.ui aid = some i ∧ s' = { s with ui := s.ui.eraseIdx i } := by
  unfold uiRemoveBody at h
  split at h <;> simp_all

theorem uiLookupBody_ok {aid : BitVec 12} {s s' : State} {n : Nat}
    (h : uiLookupBody aid s = .ok (s', n)) :
    n = 0 ∧ ∃ e ∈ s.ui, e.aid = aid ∧ s' = s.stage e (s.serialPos e) := by
  unfold uiLookupBody at h
  split at h
  · rename_i e he
    simp only [Except.ok.injEq, Prod.mk.injEq] at h
    exact ⟨h.2.symm, e, List.mem_of_find?_eq_some he, by simpa using List.find?_some he, h.1.symm⟩
  · simp at h

theorem uiReadBody_ok {pos : BitVec 16} {s s' : State} {n : Nat} (h : uiReadBody pos s = .ok (s', n)) :
    n = 0 ∧ ∃ e, s.serial[pos.toNat]? = some e ∧ s' = s.stage e pos.toNat := by
  unfold uiReadBody at h
  split at h
  · rename_i e he
    simp only [Except.ok.injEq, Prod.mk.injEq] at h
    exact ⟨h.2.symm, e, he, h.1.symm⟩
  · simp at h

theorem trgSizeBody_ok {s s' : State} {n : Nat} (h : trgSizeBody s = .ok (s', n)) :
    ∃ t, s.trgType? = some t ∧ s' = s ∧ n = trgSizeOf t s.uiCount := by
  unfold trgSizeBody at h
  split at h
  · rename_i t ht
    simp only [Except.ok.injEq, Prod.mk.injEq] at h
    exact ⟨t, ht, h.1.symm, h.2.symm⟩
  · simp at h

theorem trgEncodeBody_ok {s s' : State} {n : Nat} (h : trgEncodeBody s = .ok (s', n)) :
    ∃ t, s.trgType? = some t ∧ n = trgSizeOf t s.uiCount ∧ s.bufOff.toNat + n ≤ s.cfg.bufSize ∧
      s' = s.writeOctets s.bufOff.toNat (s.trgBody t) := by
  unfold trgEncodeBody at h
  split at h
  · simp at h
  · rename_i t ht
    split at h
    · simp at h
    · simp only [Except.ok.injEq, Prod.mk.injEq] at h
      exact ⟨t, ht, h.2.symm, by omega, h.1.symm⟩

theorem trgDecodeBody_ok {s s' : State} {n : Nat} (h : trgDecodeBody s = .ok (s', n)) :
    ∃ t, s.bufOff.toNat + s.inLen.toNat ≤ s.cfg.bufSize ∧ 9 ≤ s.inLen.toNat ∧
      TrgType.ofSelector (ciSelector s.wireCi) = some t ∧ n = trgSizeOf t s.wireUsers ∧
      n ≤ s.inLen.toNat ∧ s.wireUsers ≤ s.cfg.uiCap ∧
      ((s.wireRecords t s.wireUsers).map UiEntry.aid).Nodup ∧
      s' = { s with trgCi := s.wireCi, ui := s.wireRecords t s.wireUsers } := by
  unfold trgDecodeBody at h
  split at h
  · simp at h
  split at h
  · simp at h
  split at h
  · simp at h
  rename_i t ht
  split at h
  · simp at h
  split at h
  · simp at h
  split at h
  · simp only [Except.ok.injEq, Prod.mk.injEq] at h
    exact ⟨t, by omega, by omega, ht, h.2.symm, by omega, by omega, ‹_›, h.1.symm⟩
  · simp at h

/-- Writing fields changes FBUF alone. -/
theorem writeFields_eq (s : State) (o : Nat) (h : Hdr) (fs : List FieldAt) :
    ∃ m, s.writeFields o h fs = { s with fbuf := m } := by
  induction fs generalizing s with
  | nil => exact ⟨s.fbuf, rfl⟩
  | cons f fs ih =>
    obtain ⟨m, hm⟩ := ih (s.memWrite (o + f.off) f.width (h.get f.field))
    exact ⟨m, hm⟩

/-- What a completing body leaves alone: the lines "Flags written" and "Writes" of the command rules. -/
theorem bodyOf_frame {i : Instr} {s s' : State} {n : Nat} (h : bodyOf i s = .ok (s', n)) :
    (s'.cfg = s.cfg ∧ s'.err = s.err ∧ s'.fatal = s.fatal ∧ s'.fcause = s.fcause
      ∧ s'.lastOpc = s.lastOpc ∧ s'.bufOff = s.bufOff ∧ s'.inLen = s.inLen ∧ s'.fbufEpoch = s.fbufEpoch
      ∧ s'.host = s.host ∧ s'.accessIndex = s.accessIndex ∧ s'.reads = s.reads)
    ∧ (i ≠ .hdrDecode → i ≠ .hdrClear → s'.hdr = s.hdr)
    ∧ (i ≠ .addrResolve → s'.res = s.res)
    ∧ (i ≠ .trgDecode → s'.trgCi = s.trgCi)
    ∧ (i ≠ .uiClear → i ≠ .uiInsert → (∀ a, i ≠ .uiRemove a) → i ≠ .trgDecode → s'.ui = s.ui)
    ∧ ((∀ a, i ≠ .uiLookup a) → (∀ k, i ≠ .uiRead k) → s'.uiW0 = s.uiW0 ∧ s'.uiW1 = s.uiW1)
    ∧ ((∀ a, i ≠ .uiLookup a) → (∀ k, i ≠ .uiRead k) → i ≠ .uiClear → s'.uiPos = s.uiPos)
    ∧ (i ≠ .hdrEncode → i ≠ .trgEncode → s'.fbuf = s.fbuf) := by
  cases i with
  | nop => rw [(nopBody_ok h).1]; simp
  | hdrSize => rw [(hdrSizeBody_ok h).2.1]; simp
  | hdrEncode =>
    obtain ⟨-, -, rfl, -⟩ := hdrEncodeBody_ok h
    obtain ⟨m, hm⟩ := writeFields_eq s s.bufOff.toNat s.hdr (layout s.hdr.fc)
    rw [hm]; simp
  | hdrDecode => obtain ⟨-, -, -, -, rfl⟩ := hdrDecodeBody_ok h; simp
  | addrResolve => obtain ⟨-, -, rfl, -⟩ := addrResolveBody_ok h; simp
  | hdrClear => obtain ⟨rfl, -⟩ := hdrClearBody_ok h; simp
  | uiClear => obtain ⟨rfl, -⟩ := uiClearBody_ok h; simp
  | uiInsert => obtain ⟨-, ⟨_, -, rfl⟩ | ⟨-, -, rfl⟩⟩ := uiInsertBody_ok h <;> simp
  | uiRemove aid => obtain ⟨-, _, -, rfl⟩ := uiRemoveBody_ok h; simp
  | uiLookup aid => obtain ⟨-, _, -, -, rfl⟩ := uiLookupBody_ok h; simp
  | uiRead pos => obtain ⟨-, _, -, rfl⟩ := uiReadBody_ok h; simp
  | trgSize => obtain ⟨_, -, rfl, -⟩ := trgSizeBody_ok h; simp
  | trgEncode => obtain ⟨_, -, -, -, rfl⟩ := trgEncodeBody_ok h; simp
  | trgDecode => obtain ⟨_, -, -, -, -, -, -, -, rfl⟩ := trgDecodeBody_ok h; simp

/-! ### The UserInfo table -/

/-- The serialization order holds the entries of the table (R181). -/
theorem serialList_perm (o : UiOrder) (l : List UiEntry) : (serialList o l).Perm l := by
  cases o
  · exact .refl _
  · exact List.perm_insertionSort _ _

@[simp] theorem length_serialList (o : UiOrder) (l : List UiEntry) :
    (serialList o l).length = l.length := (serialList_perm o l).length_eq

@[simp] theorem length_serial (s : State) : s.serial.length = s.ui.length := length_serialList _ _

theorem mem_serial {s : State} {e : UiEntry} : e ∈ s.serial ↔ e ∈ s.ui := (serialList_perm _ _).mem_iff

/-- The position UI_LOOKUP reports is a position of the table (R190). -/
theorem serialPos_lt {s : State} {e : UiEntry} (h : e ∈ s.ui) : s.serialPos e < s.ui.length := by
  rw [← length_serial s]
  exact List.findIdx_lt_length_of_exists ⟨e, mem_serial.2 h, by simp⟩

/-- FindAID answers an index of an entry with that AID (R182). -/
theorem findAid_some {l : List UiEntry} {a : BitVec 12} {i : Nat} (h : findAid l a = some i) :
    ∃ hi : i < l.length, l[i].aid = a := by
  obtain ⟨hi, h1, -⟩ := List.findIdx?_eq_some_iff_getElem.1 h
  exact ⟨hi, by simpa using h1⟩

/-- FindAID answers NONE exactly when no entry has the AID (R182). -/
theorem findAid_none {l : List UiEntry} {a : BitVec 12} :
    findAid l a = none ↔ ∀ e ∈ l, e.aid ≠ a := by
  simp [findAid, List.findIdx?_eq_none_iff]

/-! ### Sizes -/

theorem recSize_le (t : TrgType) : recSize t ≤ 7 := by cases t <;> decide

theorem length_flatMap_records (t : TrgType) (l : List UiEntry) :
    (l.flatMap (fun e => toOctets (recSize t) (serialize e t))).length = l.length * recSize t := by
  induction l with
  | nil => simp
  | cons e l ih =>
    simp only [List.flatMap_cons, List.length_append, length_toOctets, ih, List.length_cons]
    ring

/-- The body of R196 has the size of R121. -/
@[simp] theorem length_trgBody (s : State) (t : TrgType) :
    (s.trgBody t).length = trgSizeOf t s.uiCount := by
  simp only [State.trgBody, List.length_append, length_toOctets, length_flatMap_records, length_serial,
    trgSizeOf, State.uiCount]

/-- R106: no header is longer than 36 octets. -/
theorem hdrSize_le (fc : Half) : hdrSize fc ≤ 36 := by
  unfold hdrSize
  split
  · omega
  split
  · omega
  split
  · omega
  have := (has4 fc).toNat_le
  have := (hasQos fc).toNat_le
  have := (hasHtc fc).toNat_le
  omega

/-! ### The header loops -/

/-- Writing fields keeps FBUF's canonical form and stays below the end of the last field. -/
theorem writeFields_fbuf {s : State} {o n : Nat} {h : Hdr} {fs : List FieldAt}
    (hw : Memory.wf s.fbuf) (hfs : ∀ f ∈ fs, f.off + f.width ≤ n) :
    Memory.wf (s.writeFields o h fs).fbuf ∧
      ∀ c ∈ (s.writeFields o h fs).fbuf, c ∈ s.fbuf ∨ c.1 < o + n := by
  induction fs generalizing s with
  | nil => exact ⟨hw, fun c hc => .inl hc⟩
  | cons f fs ih =>
    have hf := hfs f (by simp)
    obtain ⟨h1, h2⟩ := ih (s := s.memWrite (o + f.off) f.width (h.get f.field))
      (by simpa using Memory.wf_writeOctets hw _ _) (fun g hg => hfs g (by simp [hg]))
    refine ⟨h1, fun c hc => ?_⟩
    rcases h2 c hc with hc | hc
    · rcases Memory.mem_writeOctets (by simpa using hc) with hc | ⟨-, hc⟩
      · exact .inl hc
      · right; simp only [length_toOctets] at hc; omega
    · exact .inr hc

/-! ### Steps -/

/-- Everything an access can do (R60 to R66). -/
theorem serveAccess_cases (a : Access) (s : State) :
    (target s.cfg a.offset a.width = none ∧ serveAccess a s = .busError s.accessIndex) ∨
    (∃ t, target s.cfg a.offset a.width = some t ∧ a.kind = .read ∧
      serveAccess a s = .done
        { s with accessIndex := s.accessIndex + 1, reads := s.reads ++ [s.readTarget t a.width] }) ∨
    (target s.cfg a.offset a.width = some (.reg .cmd) ∧ a.kind = .write ∧
      serveAccess a s = .command a.data { s with accessIndex := s.accessIndex + 1 }) ∨
    (∃ t, target s.cfg a.offset a.width = some t ∧ a.kind = .write ∧ t ≠ .reg .cmd ∧
      serveAccess a s = .done
        { s.writeTarget t a.width a.data with accessIndex := s.accessIndex + 1 }) := by
  unfold serveAccess
  cases ht : target s.cfg a.offset a.width with
  | none => exact .inl ⟨rfl, rfl⟩
  | some t =>
    cases hk : a.kind with
    | read => exact .inr (.inl ⟨t, rfl, rfl, rfl⟩)
    | write =>
      by_cases hc : t = .reg .cmd
      · exact .inr (.inr (.inl ⟨by rw [hc], rfl, by simp [hc]⟩))
      · exact .inr (.inr (.inr ⟨t, rfl, rfl, hc, by simp [hc]⟩))

/-- Everything a step can do when it answers a next state. -/
theorem step_cases {s s' : State} (h : step s = .next s') :
    (serveHost s = .done s') ∨
    (∃ w u i, serveHost s = .command w u ∧ decode w = .ok i ∧ s' = runCommand i.opc (bodyOf i) u) ∨
    (∃ w u e, serveHost s = .command w u ∧ decode w = .error e ∧ s' = illegalCommand w u) := by
  unfold step at h
  split at h
  · rename_i u hu
    exact .inl (by rw [hu]; simpa using h)
  · simp at h
  · rename_i w u hu
    split at h
    · rename_i i hi
      rw [exec_eq] at h
      exact .inr (.inl ⟨w, u, i, hu, hi, by simpa using h.symm⟩)
    · rename_i e he
      exact .inr (.inr ⟨w, u, e, hu, he, by simpa using h.symm⟩)

end Sys2Proof.Machine
end

