-- ==== Sys2Proof/Laws/Bus.lean ====
section
/-! SUPPORT. The host's side: which accesses are legal, what the next event is, and the LO and HI views of an address (spec 20_memory.md R60 to R66, 10_state.md R33). -/

namespace Sys2Proof.Machine

/-- An offset of the window comes back from its system address (R61). -/
theorem windowOffset_base (p : Params) (o : BitVec 13) : windowOffset p (p.fceBase + o.toNat) = some o := by
  have := o.isLt
  simp only [windowOffset]
  rw [if_pos ⟨by omega, by omega⟩, Nat.add_sub_cancel_left, BitVec.ofNat_toNat, BitVec.setWidth_eq]

theorem ofOffset_offset (r : RegName) : RegName.ofOffset r.offset = some r := by cases r <;> rfl

theorem offset_of_ofOffset {n : Nat} {r : RegName} (h : RegName.ofOffset n = some r) : r.offset = n := by
  simpa using List.find?_some h

/-- A 32-bit access at a register's offset reaches it (R62). -/
theorem target_reg (p : Params) (r : RegName) :
    target p (BitVec.ofNat 13 r.offset) .w32 = some (.reg r) := by
  cases r <;> rfl

/-- A buffer access that R64 calls legal reaches its octet. -/
theorem target_buf (p : Params) (a : Nat) (w : Width) (hb : p.bufSize ≤ 4096) (h1 : a % w.octets = 0)
    (h2 : a + w.octets ≤ p.bufSize) : target p (BitVec.ofNat 13 (0x1000 + a)) w = some (.buf a) := by
  have hw : 1 ≤ w.octets := by cases w <;> decide
  have ho : (BitVec.ofNat 13 (0x1000 + a)).toNat = 0x1000 + a := by
    rw [BitVec.toNat_ofNat]; omega
  unfold target
  rw [ho, if_neg (by omega), Nat.add_sub_cancel_left, if_pos ⟨h1, h2⟩]

/-- The two readings of R62 and R64 agree. -/
theorem exists_target_iff (p : Params) (o : BitVec 13) (w : Width) :
    (∃ t, target p o w = some t) ↔ LegalAccess p o w := by
  unfold target LegalAccess
  constructor
  · rintro ⟨t, ht⟩
    split at ht
    · split at ht
      · rename_i h1 h2
        cases ho : RegName.ofOffset o.toNat with
        | none => simp [ho] at ht
        | some r => exact .inl ⟨h1, h2.1, h2.2, r, offset_of_ofOffset ho⟩
      · simp at ht
    · split at ht
      · rename_i h1 h2
        exact .inr ⟨by omega, h2.1, h2.2⟩
      · simp at ht
  · rintro (⟨h1, h2, h3, r, hr⟩ | ⟨h1, h2, h3⟩)
    · refine ⟨.reg r, ?_⟩
      rw [if_pos h1, if_pos ⟨h2, h3⟩, ← hr, ofOffset_offset]; rfl
    · refine ⟨.buf (o.toNat - 0x1000), ?_⟩
      rw [if_neg (by omega), if_pos ⟨h2, h3⟩]

/-- Serving an access the host issues next (R60). -/
theorem serveHost_event {s : State} {a : Access} {rest : List HostEvent}
    (h : s.host = a.event s.cfg :: rest) : serveHost s = serveAccess a { s with host := rest } := by
  unfold serveHost
  rw [h]
  simp only [Access.event, windowOffset_base]

/-- Serving a write to CMD hands its word over as a command (R66). -/
theorem serveHost_cmdWrite {s : State} {w : Word} {rest : List HostEvent}
    (h : s.host = cmdWrite s.cfg w :: rest) :
    serveHost s = .command w { s with host := rest, accessIndex := s.accessIndex + 1 } := by
  have ht := target_reg s.cfg .cmd
  simp only [RegName.offset] at ht
  rw [serveHost_event (a := ⟨.write, 0x010#13, .w32, w⟩) h]
  simp [serveAccess, ht]

/-! ### The LO and HI registers of an address (R33) -/

/-- The low part of a concatenation. -/
theorem extract_low_append {m n : Nat} (x : BitVec m) (y : BitVec n) :
    (x ++ y).extractLsb' 0 n = y := by
  apply BitVec.eq_of_getLsbD_eq
  intro i hi
  simp [BitVec.getLsbD_append, hi]

/-- The high part of a concatenation. -/
theorem extract_high_append {m n : Nat} (x : BitVec m) (y : BitVec n) :
    (x ++ y).extractLsb' n m = x := by
  apply BitVec.eq_of_getLsbD_eq
  intro i hi
  simp [BitVec.getLsbD_append, hi]

/-- The low bits of a word, widened again, are the word masked. -/
theorem setWidth_extract_low (v : Word) (k : Nat) (hk : k < 32) :
    (v.extractLsb' 0 k).setWidth 32 = v &&& BitVec.ofNat 32 (2 ^ k - 1) := by
  have h2 : 2 ^ k < 2 ^ 32 := Nat.pow_lt_pow_right (by omega) hk
  have hv := Nat.mod_lt v.toNat (Nat.two_pow_pos k)
  apply BitVec.eq_of_toNat_eq
  rw [BitVec.toNat_setWidth, BitVec.extractLsb'_toNat, BitVec.toNat_and, BitVec.toNat_ofNat,
    Nat.mod_eq_of_lt (a := 2 ^ k - 1) (by omega), Nat.and_two_pow_sub_one_eq_mod, Nat.shiftRight_zero,
    Nat.mod_eq_of_lt (by omega)]

@[simp] theorem addrLo_withLo (a : Addr) (v : Word) : addrLo (addrWithLo a v) = v :=
  extract_low_append (m := 16) (n := 32) _ _

@[simp] theorem addrHi_withLo (a : Addr) (v : Word) : addrHi (addrWithLo a v) = addrHi a :=
  congrArg (BitVec.setWidth 32) (extract_high_append (m := 16) (n := 32) (a.extractLsb' 32 16) v)

@[simp] theorem addrLo_withHi (a : Addr) (v : Word) : addrLo (addrWithHi a v) = addrLo a :=
  extract_low_append (m := 16) (n := 32) _ _

@[simp] theorem addrHi_withHi (a : Addr) (v : Word) : addrHi (addrWithHi a v) = v &&& 0x0000FFFF#32 := by
  refine (congrArg (BitVec.setWidth 32)
    (extract_high_append (m := 16) (n := 32) (v.extractLsb' 0 16) (a.extractLsb' 0 32))).trans ?_
  exact setWidth_extract_low v 16 (by omega)

end Sys2Proof.Machine
end

