-- ==== Sys2Proof/Laws/Header.lean ====
section
/-! SUPPORT. The header layout and the two loops over it, said once (spec 30_encoding.md R104, R105; 40_header_codec.md R144, R145). -/

namespace Sys2Proof.Machine

/-! ### The layout -/

theorem fcType_cases (fc : Half) : fcType fc = 0 ∨ fcType fc = 1 ∨ fcType fc = 2 ∨ fcType fc = 3 := by
  generalize fcType fc = t
  revert t
  decide

/-- TYPE 3 is never recognized (R96). -/
theorem fcType_ne_of_recognized {p : Params} {fc : Half} (h : recognized p fc = true) : fcType fc ≠ 3 := by
  intro h3
  simp [recognized, h3] at h

/-- Every layout of R105. -/
theorem layout_cases {fc : Half} (h : fcType fc ≠ 3) :
    (∃ f q c : Bool, (c = true → q = true) ∧ has4 fc = f ∧
      layout fc = [⟨.fc, 0, 2⟩, ⟨.dur, 2, 2⟩, ⟨.a1, 4, 6⟩, ⟨.a2, 10, 6⟩, ⟨.a3, 16, 6⟩, ⟨.seq, 22, 2⟩]
        ++ (if f then [⟨.a4, 24, 6⟩] else []) ++ (if q then [⟨.qos, 24 + 6 * f.toNat, 2⟩] else [])
        ++ (if c then [⟨.htc, 26 + 6 * f.toNat, 4⟩] else []) ∧
      hdrSize fc = 24 + 6 * f.toNat + 2 * q.toNat + 4 * c.toNat) ∨
    (has4 fc = false ∧ layout fc = [⟨.fc, 0, 2⟩, ⟨.dur, 2, 2⟩, ⟨.a1, 4, 6⟩] ∧ hdrSize fc = 10) ∨
    (has4 fc = false ∧ layout fc = [⟨.fc, 0, 2⟩, ⟨.dur, 2, 2⟩, ⟨.a1, 4, 6⟩, ⟨.a2, 10, 6⟩] ∧
      hdrSize fc = 16) := by
  rcases fcType_cases fc with ht | ht | ht | ht
  · left
    refine ⟨false, false, false, by simp, ?_⟩
    simp [layout, hdrSize, has4, hasQos, hasHtc, isData, isShort, ht]
  · right
    cases hs : isShort fc <;> simp [layout, hdrSize, has4, hasQos, hasHtc, isData, ht, hs]
  · left
    refine ⟨has4 fc, hasQos fc, hasHtc fc, by simp [hasHtc]; tauto, rfl, ?_⟩
    simp [layout, hdrSize, isShort, ht]
  · exact absurd ht h

/-- Two fields of a layout are apart on the wire and are different fields. -/
abbrev Apart (fs : List FieldAt) : Prop :=
  fs.Pairwise (fun a b => a.off + a.width ≤ b.off ∧ a.field ≠ b.field)

theorem layout_apart {fc : Half} (h : fcType fc ≠ 3) : Apart (layout fc) := by
  rcases layout_cases h with ⟨f, q, c, _, _, hl, _⟩ | ⟨_, hl, _⟩ | ⟨_, hl, _⟩
  · rw [hl]
    cases f <;> cases q <;> cases c <;> simp_all
  · rw [hl]; simp
  · rw [hl]; simp

/-- No field of a layout passes its size (R104). -/
theorem layout_bound {fc : Half} (h : fcType fc ≠ 3) : ∀ f ∈ layout fc, f.off + f.width ≤ hdrSize fc := by
  rcases layout_cases h with ⟨f, q, c, _, _, hl, hz⟩ | ⟨_, hl, hz⟩ | ⟨_, hl, hz⟩
  · rw [hl, hz]
    cases f <;> cases q <;> cases c <;> simp_all
  · rw [hl, hz]; simp
  · rw [hl, hz]; simp

/-- R106: no header is shorter than 10 octets. -/
theorem le_hdrSize (fc : Half) : 10 ≤ hdrSize fc := by
  unfold hdrSize
  split_ifs <;> omega

/-- A header with a fourth address has at least 30 octets (R105). -/
theorem le_hdrSize_of_has4 {fc : Half} (h : has4 fc = true) : 30 ≤ hdrSize fc := by
  have ht : fcType fc ≠ 3 := by
    intro h3
    simp [has4, isData, h3] at h
  rcases layout_cases ht with ⟨f, q, c, _, hf, _, hz⟩ | ⟨hf, _⟩ | ⟨hf, _⟩
  · rw [h] at hf
    subst hf
    simp only [Bool.toNat_true] at hz
    omega
  · simp [h] at hf
  · simp [h] at hf

theorem fc_mem_layout (fc : Half) : ⟨.fc, 0, 2⟩ ∈ layout fc := by simp [layout]

/-- How many values the register of a field holds (R140). -/
def HdrField.range : HdrField → Nat
  | .fc => 2 ^ 16
  | .dur => 2 ^ 16
  | .a1 => 2 ^ 48
  | .a2 => 2 ^ 48
  | .a3 => 2 ^ 48
  | .a4 => 2 ^ 48
  | .seq => 2 ^ 16
  | .qos => 2 ^ 16
  | .htc => 2 ^ 32

/-- R103: a field's octets hold exactly the values of its register. -/
theorem layout_fits (fc : Half) : ∀ f ∈ layout fc, 256 ^ f.width = f.field.range := by
  intro f hf
  simp only [layout, List.mem_append, List.mem_cons, List.not_mem_nil, or_false] at hf
  rcases hf with (((((hf | hf | hf) | hf) | hf) | hf) | hf) | hf
  case inl.inl.inl.inl.inl.inl => subst hf; rfl
  case inl.inl.inl.inl.inl.inr.inl => subst hf; rfl
  case inl.inl.inl.inl.inl.inr.inr => subst hf; rfl
  all_goals
    split at hf <;> simp only [List.mem_cons, List.not_mem_nil, or_false] at hf
    first
      | (subst hf; rfl)
      | (rcases hf with hf | hf <;> subst hf <;> rfl)

/-! ### The header registers -/

theorem Hdr.get_lt (h : Hdr) (f : HdrField) : h.get f < f.range := by
  cases f <;> exact BitVec.isLt _

theorem Hdr.get_set (h : Hdr) (f g : HdrField) (v : Nat) :
    (h.set f v).get g = if g = f then v % f.range else h.get g := by
  cases f <;> cases g <;> simp [Hdr.get, Hdr.set, HdrField.range]

/-- Two headers with the same field values are equal. -/
theorem Hdr.ext_get {h g : Hdr} (e : ∀ f, h.get f = g.get f) : h = g := by
  have h1 := e .fc
  have h2 := e .dur
  have h3 := e .a1
  have h4 := e .a2
  have h5 := e .a3
  have h6 := e .a4
  have h7 := e .seq
  have h8 := e .qos
  have h9 := e .htc
  obtain ⟨_, _, _, _, _, _, _, _, _⟩ := h
  obtain ⟨_, _, _, _, _, _, _, _, _⟩ := g
  simp only [Hdr.get] at h1 h2 h3 h4 h5 h6 h7 h8 h9
  simp only [Hdr.mk.injEq]
  refine ⟨?_, ?_, ?_, ?_, ?_, ?_, ?_, ?_, ?_⟩ <;> apply BitVec.eq_of_toNat_eq <;> assumption

/-! ### The writing loop of R144 -/

theorem octet_writeFields_outside {s : State} {o : Nat} {h : Hdr} {fs : List FieldAt} {x : Nat}
    (hx : ∀ f ∈ fs, x < o + f.off ∨ o + f.off + f.width ≤ x) :
    (s.writeFields o h fs).octet x = s.octet x := by
  induction fs generalizing s with
  | nil => rfl
  | cons f fs ih =>
    rw [State.writeFields, ih (fun g hg => hx g (by simp [hg])),
      octet_memWrite_outside _ _ _ _ _ (hx f (by simp))]

theorem octet_writeFields_inside {s : State} {o : Nat} {h : Hdr} {fs : List FieldAt} (hd : Apart fs)
    {f : FieldAt} (hf : f ∈ fs) {k : Nat} (hk : k < f.width) :
    (s.writeFields o h fs).octet (o + f.off + k) = BitVec.ofNat 8 (h.get f.field / 256 ^ k) := by
  induction fs generalizing s with
  | nil => simp at hf
  | cons g fs ih =>
    rw [Apart, List.pairwise_cons] at hd
    simp only [List.mem_cons] at hf
    rw [State.writeFields]
    rcases hf with rfl | hf
    · rw [octet_writeFields_outside, octet_memWrite_inside _ _ _ _ _ hk]
      intro g hg
      have := hd.1 g hg
      omega
    · exact ih hd.2 hf

/-- A written field reads back. -/
theorem memRead_writeFields {s : State} {o : Nat} {h : Hdr} {fs : List FieldAt} (hd : Apart fs)
    {f : FieldAt} (hf : f ∈ fs) :
    (s.writeFields o h fs).memRead (o + f.off) f.width = h.get f.field % 256 ^ f.width := by
  rw [← ofOctets_toOctets, State.memRead]
  congr 1
  apply List.ext_getElem (by simp)
  intro i h1 h2
  rw [getElem_octets, octet_writeFields_inside hd hf (by simpa using h1), getElem_toOctets]

/-! ### The reading loop of R145 -/

theorem get_readFields_absent {s : State} {o : Nat} {h : Hdr} {fs : List FieldAt} {g : HdrField}
    (hg : ∀ f ∈ fs, f.field ≠ g) : (s.readFields o h fs).get g = h.get g := by
  induction fs generalizing h with
  | nil => rfl
  | cons f fs ih =>
    rw [State.readFields, ih (fun e he => hg e (by simp [he])), Hdr.get_set, if_neg]
    exact fun e => hg f (by simp) e.symm

theorem get_readFields_present {s : State} {o : Nat} {h : Hdr} {fs : List FieldAt} (hd : Apart fs)
    (hw : ∀ f ∈ fs, 256 ^ f.width = f.field.range) {f : FieldAt} (hf : f ∈ fs) :
    (s.readFields o h fs).get f.field = s.memRead (o + f.off) f.width := by
  induction fs generalizing h with
  | nil => simp at hf
  | cons g fs ih =>
    rw [Apart, List.pairwise_cons] at hd
    simp only [List.mem_cons] at hf
    rw [State.readFields]
    rcases hf with rfl | hf
    · rw [get_readFields_absent (fun g hg => (hd.1 g hg).2.symm), Hdr.get_set, if_pos rfl,
        ← hw f (by simp)]
      exact Nat.mod_eq_of_lt (memRead_lt _ _ _)
    · exact ih hd.2 (fun e he => hw e (by simp [he])) hf

/-- The loop depends on the octets of its fields alone. -/
theorem readFields_congr {s t : State} {o : Nat} {h : Hdr} {fs : List FieldAt}
    (hm : ∀ f ∈ fs, ∀ i < f.width, t.octet (o + f.off + i) = s.octet (o + f.off + i)) :
    t.readFields o h fs = s.readFields o h fs := by
  induction fs generalizing h with
  | nil => rfl
  | cons f fs ih =>
    rw [State.readFields, State.readFields, memRead_ext (hm f (by simp)),
      ih (fun g hg => hm g (by simp [hg]))]

/-- The frame control value HDR_DECODE reads depends on two octets. -/
theorem wireFc_congr {s t : State} (h0 : t.bufOff = s.bufOff)
    (h : ∀ i < 2, t.octet (s.bufOff.toNat + i) = s.octet (s.bufOff.toNat + i)) : t.wireFc = s.wireFc := by
  rw [State.wireFc, State.wireFc, h0, memRead_ext h]

end Sys2Proof.Machine
end

