-- ==== Sys2Proof/Laws/Trigger.lean ====
section
/-! SUPPORT. Trigger records and bodies as numbers, and the lookups of the UserInfo table (spec 30_encoding.md R126 to R129; 41_trigger_codec.md R181, R182, R196, R200). -/

namespace Sys2Proof.Machine

/-! ### Concatenation as numbers -/

theorem toNat_append_two {i j : Nat} (a : BitVec i) (b : BitVec j) :
    (a ++ b).toNat = a.toNat * 2 ^ j + b.toNat := by
  have := b.isLt
  rw [BitVec.toNat_append, ← Nat.shiftLeft_add_eq_or_of_lt (by omega), Nat.shiftLeft_eq]

theorem toNat_append_three {i j k : Nat} (a : BitVec i) (b : BitVec j) (c : BitVec k) :
    (a ++ b ++ c).toNat = a.toNat * 2 ^ j * 2 ^ k + b.toNat * 2 ^ k + c.toNat := by
  rw [toNat_append_two, toNat_append_two]
  ring

/-! ### Records (R129) -/

/-- A serialized entry as a number of its two staging words. -/
theorem serialize_eq (e : UiEntry) (t : TrgType) :
    serialize e t = e.w0.toNat + 2 ^ 32 * (e.w1.toNat % 256)
      + match t with
        | .basic => 2 ^ 40 * (e.w1.toNat / 256 % 256)
        | .muBar => 2 ^ 40 * (e.w1.toNat / 65536)
        | .muRts => 0
        | .bsrp => 0 := by
  have := e.w1.isLt
  cases t <;>
    simp [serialize, UiEntry.ursvd, UiEntry.basicExtra, UiEntry.barCtl, BitVec.extractLsb'_toNat,
      Nat.shiftRight_eq_div_pow]
  omega

/-- A record has `recSize` octets (R126). -/
theorem serialize_lt (e : UiEntry) (t : TrgType) : serialize e t < 256 ^ recSize t := by
  have := e.w0.isLt
  have := e.w1.isLt
  rw [serialize_eq]
  cases t <;> simp [recSize] <;> omega

theorem toNat_parse_w0 (n : Nat) (t : TrgType) : (parse n t).w0.toNat = n % 2 ^ 32 := by
  cases t <;> simp [parse, BitVec.extractLsb'_toNat]

theorem toNat_parse_w1 (n : Nat) (t : TrgType) :
    (parse n t).w1.toNat = n / 2 ^ 32 % 256
      + match t with
        | .basic => 256 * (n / 2 ^ 40 % 256)
        | .muBar => 65536 * (n / 2 ^ 40 % 65536)
        | .muRts => 0
        | .bsrp => 0 := by
  cases t
  · refine (toNat_append_three (0#16) _ _).trans ?_
    simp [BitVec.extractLsb'_toNat, Nat.shiftRight_eq_div_pow]
    omega
  · refine (toNat_append_three _ (0#8) _).trans ?_
    simp [BitVec.extractLsb'_toNat, Nat.shiftRight_eq_div_pow]
    omega
  · refine (toNat_append_two (0#24) _).trans ?_
    simp [BitVec.extractLsb'_toNat, Nat.shiftRight_eq_div_pow]
    omega
  · refine (toNat_append_two (0#24) _).trans ?_
    simp [BitVec.extractLsb'_toNat, Nat.shiftRight_eq_div_pow]
    omega

/-- The AID of a record is its low 12 bits (R127). -/
theorem toNat_aid_parse (n : Nat) (t : TrgType) : (parse n t).aid.toNat = n % 4096 := by
  have := toNat_parse_w0 n t
  simp only [UiEntry.aid, BitVec.extractLsb'_toNat, Nat.shiftRight_zero]
  omega

/-! ### The body (R196) -/

/-- Record `k` stands after `k` whole records. -/
theorem records_split {l : List UiEntry} {k : Nat} {e : UiEntry} (t : TrgType) (h : l[k]? = some e) :
    ∃ p r : List Byte, l.flatMap (fun e => toOctets (recSize t) (serialize e t))
      = p ++ toOctets (recSize t) (serialize e t) ++ r ∧ p.length = k * recSize t := by
  obtain ⟨hk, rfl⟩ := List.getElem?_eq_some_iff.1 h
  refine ⟨(l.take k).flatMap (fun e => toOctets (recSize t) (serialize e t)),
    (l.drop (k + 1)).flatMap (fun e => toOctets (recSize t) (serialize e t)), ?_, ?_⟩
  · conv_lhs => rw [← List.take_append_drop k l, List.drop_eq_getElem_cons hk]
    rw [List.flatMap_append, List.flatMap_cons, List.append_assoc]
  · rw [length_flatMap_records, List.length_take, min_eq_left (by omega)]

/-- The body's octets read back: CI, NUSERS, each record, and every octet outside the body (R196). -/
theorem reads_of_trgBody {s t : State} {ty : TrgType}
    (ht : ∀ a, t.octet a = (s.writeOctets s.bufOff.toNat (s.trgBody ty)).octet a) :
    t.memRead s.bufOff.toNat 8 = s.trgCi.toNat ∧
      t.octet (s.bufOff.toNat + 8) = BitVec.ofNat 8 s.ui.length ∧
      (∀ k e, s.serial[k]? = some e →
        t.memRead (s.bufOff.toNat + 9 + k * recSize ty) (recSize ty) = serialize e ty) ∧
      ∀ a, (a < s.bufOff.toNat ∨ s.bufOff.toNat + trgSizeOf ty s.ui.length ≤ a) →
        t.octet a = s.octet a := by
  have hm : ∀ a n, t.memRead a n = (s.writeOctets s.bufOff.toNat (s.trgBody ty)).memRead a n :=
    fun a n => memRead_ext (fun i _ => ht _)
  refine ⟨?_, ?_, ?_, ?_⟩
  · rw [hm]
    have := memRead_writeOctets_part s s.bufOff.toNat [] (toOctets 8 s.trgCi.toNat)
      (toOctets 1 s.uiCount ++ s.serial.flatMap (fun e => toOctets (recSize ty) (serialize e ty)))
    simp only [List.nil_append, List.length_nil, length_toOctets, Nat.add_zero] at this
    rw [State.trgBody, List.append_assoc, this, ofOctets_toOctets]
    exact Nat.mod_eq_of_lt (lt_of_lt_of_eq s.trgCi.isLt (by norm_num))
  · have := octet_writeOctets_inside s s.bufOff.toNat (s.trgBody ty) 8
      (by rw [length_trgBody, trgSizeOf]; omega)
    rw [ht, this]
    simp [State.trgBody, State.uiCount, toOctets]
  · intro k e hk
    rw [hm]
    obtain ⟨p, r, h1, h2⟩ := records_split ty hk
    have := memRead_writeOctets_part s s.bufOff.toNat
      (toOctets 8 s.trgCi.toNat ++ toOctets 1 s.uiCount ++ p) (toOctets (recSize ty) (serialize e ty)) r
    simp only [List.length_append, length_toOctets, h2] at this
    rw [State.trgBody, h1, show s.bufOff.toNat + 9 + k * recSize ty
      = s.bufOff.toNat + (8 + 1 + k * recSize ty) by omega]
    simp only [List.append_assoc] at this ⊢
    rw [this, ofOctets_toOctets, Nat.mod_eq_of_lt (serialize_lt e ty)]
  · intro a ha
    rw [ht, octet_writeOctets_outside _ _ _ _ (by simpa [State.uiCount] using ha)]

/-! ### The list TRG_DECODE reads (R200) -/

theorem getElem?_wireRecords (s : State) (t : TrgType) {m k : Nat} (h : k < m) :
    (s.wireRecords t m)[k]?
      = some (parse (s.memRead (s.bufOff.toNat + 9 + k * recSize t) (recSize t)) t) := by
  simp [State.wireRecords, h]

@[simp] theorem length_wireRecords (s : State) (t : TrgType) (m : Nat) :
    (s.wireRecords t m).length = m := by simp [State.wireRecords]

@[simp] theorem wireRecords_withLastOpc (s : State) (opc : BitVec 8) (t : TrgType) (m : Nat) :
    (s.withLastOpc opc).wireRecords t m = s.wireRecords t m := by simp [State.wireRecords]

@[simp] theorem wireCi_withLastOpc (s : State) (opc : BitVec 8) : (s.withLastOpc opc).wireCi = s.wireCi := by
  simp [State.wireCi]

@[simp] theorem wireUsers_withLastOpc (s : State) (opc : BitVec 8) :
    (s.withLastOpc opc).wireUsers = s.wireUsers := by simp [State.wireUsers]

/-- The check of R200: no two records carry the same AID. -/
theorem nodup_wireRecords {s : State} {t : TrgType} {m : Nat} :
    ((s.wireRecords t m).map UiEntry.aid).Nodup ↔ ∀ j k, j < k → k < m →
      (parse (s.memRead (s.bufOff.toNat + 9 + j * recSize t) (recSize t)) t).aid
        ≠ (parse (s.memRead (s.bufOff.toNat + 9 + k * recSize t) (recSize t)) t).aid := by
  simp only [State.wireRecords, List.map_map, List.Nodup, List.pairwise_iff_getElem]
  simp only [List.length_map, List.length_range, List.getElem_map, Function.comp, List.getElem_range]
  constructor
  · intro h j k hjk hk
    exact h j k (by omega) hk hjk
  · intro h i j hi hj hij
    exact h i j hij hj

theorem ciSelector_ofNat (n : Nat) : ciSelector (BitVec.ofNat 64 n) = BitVec.ofNat 4 n := by
  apply BitVec.eq_of_toNat_eq
  simp only [ciSelector, BitVec.extractLsb'_toNat, BitVec.toNat_ofNat, Nat.shiftRight_zero]
  omega

/-! ### Lookups (R182) -/

/-- A table either lacks an AID or splits at the first entry with it. -/
theorem exists_split (l : List UiEntry) (a : BitVec 12) :
    (∀ x ∈ l, x.aid ≠ a) ∨ ∃ p e q, l = p ++ e :: q ∧ e.aid = a ∧ ∀ x ∈ p, x.aid ≠ a := by
  induction l with
  | nil => left; simp
  | cons b l ih =>
    by_cases hb : b.aid = a
    · exact .inr ⟨[], b, l, rfl, hb, by simp⟩
    · rcases ih with ih | ⟨p, e, q, rfl, h1, h2⟩
      · left; simpa [hb] using ih
      · exact .inr ⟨b :: p, e, q, rfl, h1, by simpa [hb] using h2⟩

theorem findAid_split {l r : List UiEntry} {e : UiEntry} {a : BitVec 12} (he : e.aid = a)
    (hl : ∀ x ∈ l, x.aid ≠ a) : findAid (l ++ e :: r) a = some l.length := by
  rw [findAid, List.findIdx?_eq_some_iff_getElem]
  refine ⟨by simp, by simp [he], fun j hj => ?_⟩
  rw [List.getElem_append_left hj]
  simpa using hl _ (List.getElem_mem hj)

/-- Where no AID stands twice, FindAID finds the entry with the AID wherever it stands (R182). -/
theorem findAid_split_of_nodup {l r : List UiEntry} {e : UiEntry} {a : BitVec 12}
    (h : ((l ++ e :: r).map UiEntry.aid).Nodup) (he : e.aid = a) : findAid (l ++ e :: r) a = some l.length := by
  refine findAid_split he fun x hx hxa => ?_
  rw [List.map_append, List.nodup_append] at h
  exact h.2.2 _ (List.mem_map_of_mem hx) _ (by simp) (hxa.trans he.symm)

/-- Under AID_ASC the serialization order is sorted (R181). -/
theorem serialList_aidAsc_pairwise (l : List UiEntry) :
    (serialList .aidAsc l).Pairwise (fun a b => a.aid.toNat ≤ b.aid.toNat) := by
  have : Std.Total (fun a b : UiEntry => a.aid.toNat ≤ b.aid.toNat) := ⟨fun a b => le_total _ _⟩
  have : IsTrans UiEntry (fun a b : UiEntry => a.aid.toNat ≤ b.aid.toNat) := ⟨fun a b c => le_trans⟩
  exact List.pairwise_insertionSort _ _

/-- The position UI_LOOKUP reports is the entry's position in the serialization order (R190). -/
theorem getElem?_serialPos {s : State} (ht : s.TableOk) {e : UiEntry} (he : e ∈ s.ui) :
    s.serial[s.serialPos e]? = some e := by
  have hlt : s.serialPos e < s.serial.length := by simpa using serialPos_lt he
  rw [List.getElem?_eq_getElem hlt]
  congr 1
  have := List.findIdx_getElem (xs := s.serial) (p := fun x : UiEntry => x.aid == e.aid) (w := hlt)
  simp only [beq_iff_eq] at this
  exact List.inj_on_of_nodup_map ht.1 (mem_serial.1 (List.getElem_mem hlt)) he this

end Sys2Proof.Machine
end

