-- ==== Sys2Proof/Tests/Slice0.lean ====
section
/-! SUPPORT. Tests with results taken from the spec (the tables of 30_encoding.md and the vectors of 95_test_vectors.md, named in each docstring), and one witness for every statement with hypotheses. -/

namespace Sys2Proof.Tests

open Sys2Proof Sys2Proof.Machine

/-! ### The small states the tests run on -/

/-- Whether an outcome is a next state with a property. -/
def answers (o : Host.Outcome State Fault Refusal) (p : State → Bool) : Bool :=
  match o with
  | .next t => p t
  | .fault _ => false
  | .refused _ => false

/-- Whether an outcome is a bus error at an access index. -/
def faultsAt (o : Host.Outcome State Fault Refusal) (n : Nat) : Bool :=
  match o with
  | .fault (.busError k) => k == n
  | .next _ => false
  | .refused _ => false

/-- Octets written into FBUF from an address. -/
def load (s : State) (a : Nat) (l : List Nat) : State := s.writeOctets a (l.map (BitVec.ofNat 8))

/-- Octets read from FBUF, as numbers. -/
def dump (s : State) (a n : Nat) : List Nat := (s.octets a n).map BitVec.toNat

/-- The address `02:00:00:00:00:0n` of 95_test_vectors.md. -/
def addr (n : Nat) : Addr := BitVec.ofNat 48 (n * 2 ^ 40 + 2)

/-- The address `S` of 95_test_vectors.md. -/
def addrS : Addr := 0x554433221100

/-- Reset with a frame control value held and the addresses A1 to A4. -/
def held (fc : Half) : State :=
  { State.reset with hdr := ⟨fc, 0, addr 1, addr 2, addr 3, addr 4, 0, 0, 0⟩ }

/-- Row H1: a Beacon. -/
def beacon : State :=
  { State.reset with hdr := ⟨0x0080, 0, 0xFFFFFFFFFFFF, addrS, addrS, 0, 0x1230, 0, 0⟩ }

/-- The Beacon to be encoded at an offset. -/
def beaconAt (off : BitVec 12) : State := { beacon with bufOff := off }

/-- Row H3's octets at an offset, with a length to decode. -/
def cts (off n : Nat) : State :=
  { load State.reset off [0xC4, 0x00, 0x2C, 0x00, 0x02, 0x00, 0x00, 0x00, 0x00, 0x01] with
    bufOff := BitVec.ofNat 12 off, inLen := BitVec.ofNat 13 n }

/-- Row H13's octets (QoS Data with four addresses), with a length to decode. -/
def qos4 (n : Nat) : State :=
  { load State.reset 0 [0x88, 0x03, 0x00, 0x00, 0x02, 0x00, 0x00, 0x00, 0x00, 0x01, 0x02, 0x00, 0x00, 0x00, 0x00,
      0x02, 0x02, 0x00, 0x00, 0x00, 0x00, 0x03, 0x11, 0x00, 0x02, 0x00, 0x00, 0x00, 0x00, 0x04, 0x85, 0x00] with
    inLen := BitVec.ofNat 13 n }

/-- Two octets of frame control, with a length to decode. -/
def wire (lo hi n : Nat) : State := { load State.reset 0 [lo, hi] with inLen := BitVec.ofNat 13 n }

/-- The reference entries of 41_trigger_codec.md R180. -/
def u5 : UiEntry := ⟨0x50040D20, 0x0003D005⟩
def u1 : UiEntry := ⟨0xF00DBE7F, 0x26F3E001⟩
def u2007 : UiEntry := ⟨0x00010300, 0x056C87D7⟩

/-- The table of the three reference entries and a common information. -/
def table (ci : CommonInfo) : State := { State.reset with ui := [u5, u1, u2007], trgCi := ci }

/-- The same table in a build that walks it by AID. -/
def tableAsc : State :=
  { table 3 with cfg := { Config.reference with uiOrder := .aidAsc } }

/-- The table to be encoded as an MU-RTS body at an offset. -/
def tableAt (off : BitVec 12) : State := { table 3 with bufOff := off }

/-- A staged entry before the table of the reference entries. -/
def staging (w0 w1 : Word) : State := { table 3 with uiW0 := w0, uiW1 := w1 }

/-- The same with room for no more entries. -/
def full (w0 : Word) : State :=
  { staging w0 0 with cfg := { Config.reference with uiCap := 3 } }

/-- A body of row T1 with NUSERS and IN_LEN as given, and the AIDs of its first two records. -/
def body (ty users aid0 aid1 n : Nat) : State :=
  { load State.reset 0 [ty, 0, 0, 0, 0, 0, 0, 0, users, aid0, 0xD0, 0x03, 0x00, 0x20, aid1, 0xD0, 0xF3, 0x26,
      0x7F, 0xD7, 0x87, 0x6C, 0x05, 0x00] with
    inLen := BitVec.ofNat 13 n }

/-- The same body to be decoded at an offset. -/
def bodyAt (off n : Nat) : State := { body 3 3 5 1 n with bufOff := BitVec.ofNat 12 off }

/-- FATAL latched by HDR_SIZE (row F1). -/
def broken : State := { held 0x000C with err := 10, fatal := true, fcause := 2, lastOpc := 1 }

/-- A state whose next host event is an access. -/
def asks (s : State) (a : Access) : State := { s with host := [a.event s.cfg] }

/-- A state whose next host event is a write of a word to CMD. -/
def tells (s : State) (w : Word) : State := { s with host := [cmdWrite s.cfg w] }

/-! ### Ill-formed words and builds (R134, R9) -/

/-- R134: an unassigned OPC, RSV not 0, an ARG that must be 0, an AID of more than 12 bits. -/
theorem test_illformed_words :
    legalWord 0x00000006#32 = false ∧ legalWord 0x000000FF#32 = false ∧ legalWord 0x00000102#32 = false
      ∧ legalWord 0x00010001#32 = false ∧ legalWord 0x10000012#32 = false
      ∧ legalWord 0xF0000013#32 = false ∧ legalWord 0xFFFF0014#32 = true := by decide

/-- R134: the decoder names why it refuses a word. -/
theorem test_refused_words :
    decode 0x00000006#32 = .error .unassignedOpc ∧ decode 0x0000000F#32 = .error .unassignedOpc
      ∧ decode 0x00000015#32 = .error .unassignedOpc ∧ decode 0x0000001B#32 = .error .unassignedOpc
      ∧ decode 0x00000102#32 = .error .reservedNotZero ∧ decode 0x0001001A#32 = .error .illegalArg
      ∧ decode 0x10000012#32 = .error .illegalArg ∧ decode 0xF0000013#32 = .error .illegalArg := by decide

/-- R8, R9: each constraint refuses a build. -/
theorem test_illformed_builds :
    ¬ Params.bufSizeOk { Config.reference with bufSize := 63 }
      ∧ ¬ Params.bufSizeOk { Config.reference with bufSize := 4097 }
      ∧ ¬ Params.uiCapOk { Config.reference with uiCap := 0 }
      ∧ ¬ Params.uiCapOk { Config.reference with uiCap := 256 }
      ∧ ¬ Params.recogCtrlOk { Config.reference with recogCtrl := 0x3F04#16 } := by decide

/-- The reference build is well formed. -/
theorem test_reference_wellFormed : Config.reference.WellFormed := by decide

/-! ### Decoding: every constructor's word, written out from R90 and R91 -/

theorem test_decode_header :
    decode 0x00000000#32 = .ok .nop ∧ decode 0x00000001#32 = .ok .hdrSize
      ∧ decode 0x00000002#32 = .ok .hdrEncode ∧ decode 0x00000003#32 = .ok .hdrDecode
      ∧ decode 0x00000004#32 = .ok .addrResolve ∧ decode 0x00000005#32 = .ok .hdrClear := by decide

theorem test_decode_table :
    decode 0x00000010#32 = .ok .uiClear ∧ decode 0x00000011#32 = .ok .uiInsert
      ∧ decode 0x00050012#32 = .ok (.uiRemove 5) ∧ decode 0x0FFF0012#32 = .ok (.uiRemove 0xFFF)
      ∧ decode 0x07D70013#32 = .ok (.uiLookup 2007) ∧ decode 0x00000014#32 = .ok (.uiRead 0)
      ∧ decode 0xFFFF0014#32 = .ok (.uiRead 0xFFFF) := by decide

theorem test_decode_trigger :
    decode 0x00000018#32 = .ok .trgSize ∧ decode 0x00000019#32 = .ok .trgEncode
      ∧ decode 0x0000001A#32 = .ok .trgDecode := by decide

theorem test_encode_words :
    encode (.uiRemove 5) = 0x00050012#32 ∧ encode (.uiLookup 0x7D7) = 0x07D70013#32
      ∧ encode (.uiRead 0xFFFF) = 0xFFFF0014#32 ∧ encode .trgDecode = 0x0000001A#32 := by decide

theorem test_table_words :
    decodeTableWord 32 0x00050012 = some (.uiRemove 5) ∧ decodeTableWord 32 0x00000102 = none := by decide

/-! ### The default masks against the tables R98, R99 and R100 -/

theorem test_default_masks :
    (List.range 16).map (fun k => Config.reference.recogMgmt.getLsbD k)
        = [true, true, false, false, true, true, false, false, true, false, true, false, false, true, false, false]
      ∧ (List.range 16).filter (fun k => Config.reference.recogCtrl.getLsbD k) = [2, 8, 9, 11, 12, 13]
      ∧ (List.range 16).filter (fun k => Config.reference.recogData.getLsbD k) = [0, 8] := by decide

/-- Section 2.2: sizes of the data classes. -/
theorem test_sizes :
    [0x0008#16, 0x8008, 0x0308, 0x0088, 0x8088, 0x0388, 0x8388, 0x8380, 0x00C4, 0x00D4, 0x0024, 0x7C80].map hdrSize
      = [24, 24, 30, 26, 30, 32, 36, 24, 10, 10, 16, 24] := by decide

/-! ### One step per command: 95_test_vectors.md -/

/-- Section 2.9, and row F2 under FATAL. -/
theorem test_nop :
    answers (exec .nop State.reset) (fun t => t.statusWord == 0x00000000) = true
      ∧ answers (exec .nop broken) (fun t => t.statusWord == 0x00002108) = true := by decide

/-- R143's example and row HC6. -/
theorem test_hdrSize :
    answers (exec .hdrSize (held 0x8388)) (fun t => t.statusWord == 0x00010000 && t.resultLen == 36) = true
      ∧ answers (exec .hdrSize (held 0x0048)) (fun t => t.statusWord == 0x0001210A && t.resultLen == 0) = true := by
  decide

/-- Row H1: the octets of a Beacon. -/
theorem test_hdrEncode :
    answers (exec .hdrEncode beacon) (fun t => t.statusWord == 0x00020000 && dump t 0 24
      == [0x80, 0, 0, 0, 0xFF, 0xFF, 0xFF, 0xFF, 0xFF, 0xFF, 0, 0x11, 0x22, 0x33, 0x44, 0x55, 0, 0x11, 0x22, 0x33,
        0x44, 0x55, 0x30, 0x12]) = true := by decide

/-- Rows HC1 and HC2: the last offset at which a Beacon fits. -/
theorem test_hdrEncode_bounds :
    answers (exec .hdrEncode (beaconAt 2025)) (fun t => t.statusWord == 0x00020004) = true
      ∧ answers (exec .hdrEncode (beaconAt 2024)) (fun t => t.statusWord == 0x00020000) = true := by
  decide

/-- Row D20: a CTS; the absent fields are written 0. -/
theorem test_hdrDecode :
    answers (exec .hdrDecode { cts 0 10 with hdr := (held 0x0308).hdr }) (fun t =>
      t.statusWord == 0x00030000 && t.resultLen == 10
        && t.hdr == ⟨0x00C4, 0x002C, addr 1, 0, 0, 0, 0, 0, 0⟩) = true := by decide

/-- Rows D12 and D15: a cut fourth address, and a cut QoS field. -/
theorem test_hdrDecode_raises :
    answers (exec .hdrDecode (qos4 29)) (fun t => t.statusWord == 0x0003110A) = true
      ∧ answers (exec .hdrDecode (qos4 30)) (fun t => t.statusWord == 0x00030001) = true := by decide

/-- Rows R2 and R4. -/
theorem test_addrResolve :
    answers (exec .addrResolve (held 0x0208)) (fun t =>
        t.statusWord == 0x00040000 && t.res == ⟨0b00111, addr 1, addr 3, addr 2, 0, 0⟩) = true
      ∧ answers (exec .addrResolve (held 0x0308)) (fun t =>
        t.statusWord == 0x00040000 && t.res == ⟨0b11011, addr 3, addr 4, 0, addr 1, addr 2⟩) = true := by decide

/-- Rows R7 and F8. -/
theorem test_addrResolve_raises :
    answers (exec .addrResolve (held 0x0080)) (fun t => t.statusWord == 0x00040009) = true
      ∧ answers (exec .addrResolve (held 0x00A4)) (fun t => t.statusWord == 0x0004210A) = true := by decide

/-- R165, and row F3 under FATAL. -/
theorem test_hdrClear :
    answers (exec .hdrClear beacon) (fun t => t.statusWord == 0x00050000 && t.hdr == .zero) = true
      ∧ answers (exec .hdrClear broken) (fun t => t.statusWord == 0x00052108 && t.hdr.fc == 0x000C) = true := by
  decide

/-- R183's example. -/
theorem test_uiClear :
    answers (exec .uiClear (table 3)) (fun t => t.statusWord == 0x00100000 && t.readReg .uiCount == 0) = true := by
  decide

/-- R184's example: a replacement in place, and row U18: a full table. -/
theorem test_uiInsert :
    answers (exec .uiInsert (staging 0x00410001 0xF00DBE7F)) (fun t => t.statusWord == 0x00110000
        && t.ui == [u5, ⟨0xF00DBE7F, 0x00410001⟩, u2007]) = true
      ∧ answers (exec .uiInsert (full 0x00000021)) (fun t => t.statusWord == 0x00110005) = true := by decide

/-- R186's example, and an absent AID. -/
theorem test_uiRemove :
    answers (exec (.uiRemove 5) (table 3)) (fun t => t.statusWord == 0x00120000 && t.ui == [u1, u2007]) = true
      ∧ answers (exec (.uiRemove 6) (table 3)) (fun t => t.statusWord == 0x00120006) = true := by decide

/-- R190's example, under both orders. -/
theorem test_uiLookup :
    answers (exec (.uiLookup 5) (table 3)) (fun t => t.statusWord == 0x00130000 && t.uiPos == 0
        && t.uiW0 == 0x0003D005 && t.uiW1 == 0x50040D20) = true
      ∧ answers (exec (.uiLookup 5) tableAsc) (fun t => t.uiPos == 1) = true := by decide

/-- R192's example, under both orders. -/
theorem test_uiRead :
    answers (exec (.uiRead 0) tableAsc) (fun t => t.uiW0 == 0x26F3E001 && t.uiPos == 0) = true
      ∧ answers (exec (.uiRead 3) (table 3)) (fun t => t.statusWord == 0x00140006) = true := by decide

/-- R195's example, and rows TC1 and T4. -/
theorem test_trgSize :
    answers (exec .trgSize (table 3)) (fun t => t.statusWord == 0x00180000 && t.resultLen == 24) = true
      ∧ answers (exec .trgSize (table 5)) (fun t => t.statusWord == 0x0018310A) = true
      ∧ answers (exec .trgSize (table 0xFEDCBA9876543212)) (fun t => t.resultLen == 30) = true := by decide

/-- Row T3: the octets of a Basic Trigger body. -/
theorem test_trgEncode_basic :
    answers (exec .trgEncode (table 0x0123456789ABCDE0)) (fun t => t.resultLen == 27 && dump t 0 27
      == [0xE0, 0xCD, 0xAB, 0x89, 0x67, 0x45, 0x23, 0x01, 3, 0x05, 0xD0, 0x03, 0x00, 0x20, 0x0D, 0x01, 0xE0, 0xF3,
        0x26, 0x7F, 0xBE, 0xD7, 0x87, 0x6C, 0x05, 0x00, 0x03]) = true := by decide

/-- Row T7: the octets of an MU-BAR body under AID_ASC. -/
theorem test_trgEncode_muBar :
    answers (exec .trgEncode { tableAsc with trgCi := 0xFEDCBA9876543212 }) (fun t => t.resultLen == 30
      && dump t 0 30 == [0x12, 0x32, 0x54, 0x76, 0x98, 0xBA, 0xDC, 0xFE, 3, 0x01, 0xE0, 0xF3, 0x26, 0x7F, 0x0D, 0xF0,
        0x05, 0xD0, 0x03, 0x00, 0x20, 0x04, 0x50, 0xD7, 0x87, 0x6C, 0x05, 0x00, 0x01, 0x00]) = true := by decide

/-- R200's example in its first record, and row E6. -/
theorem test_trgDecode :
    answers (exec .trgDecode (body 3 3 5 1 24)) (fun t => t.statusWord == 0x001A0000 && t.trgCi == 3
        && t.ui.length == 3 && t.ui.head? == some ⟨0x00000020, 0x0003D005⟩) = true
      ∧ answers (exec .trgDecode (body 3 2 5 5 19)) (fun t => t.statusWord == 0x001A0003 && t.ui == []) = true := by
  decide

/-! ### Steps: the host's accesses -/

/-- Section 2.9: words written to CMD from reset. -/
theorem test_step_commands :
    answers (step (tells State.reset 0x00000102)) (fun t => t.statusWord == 0x00020007) = true
      ∧ answers (step (tells State.reset 0x0FFF0012)) (fun t => t.statusWord == 0x00120006) = true
      ∧ answers (step (tells broken 0x000000FF)) (fun t => t.statusWord == 0x00FF2108) = true := by decide

/-- R62, R63: a narrow, a misaligned and an unmapped register access, and a buffer access past the end. -/
theorem test_step_busErrors :
    faultsAt (step (asks State.reset ⟨.read, 0x014, .w16, 0⟩)) 0 = true
      ∧ faultsAt (step (asks State.reset ⟨.read, 0x016, .w32, 0⟩)) 0 = true
      ∧ faultsAt (step (asks State.reset ⟨.write, 0x024, .w32, 0⟩)) 0 = true
      ∧ faultsAt (step (asks State.reset ⟨.write, 0x1800, .w8, 0⟩)) 0 = true := by decide

/-- R65: a 16-bit read of what a 32-bit write left. -/
theorem test_step_buffer :
    answers (step (asks State.reset ⟨.write, 0x1000, .w32, 0x44332211⟩)) (fun t =>
      answers (step (asks t ⟨.read, 0x1002, .w16, 0⟩)) (fun u => u.reads == [0x4433#32])) = true := by decide

/-- R250: the reset event after a Fatal outcome (row F6). -/
theorem test_step_reset :
    answers (step { broken with host := [.reset] }) (fun t => t.statusWord == 0 && t.hdr == .zero) = true := by
  decide

/-- R133: the examples of the assembler's expansions. -/
theorem test_assemble :
    assemble (.cmdArg .uiRemove 5) = some [⟨.write, 0x010, .w32, 0x00050012⟩]
      ∧ assemble (.setSeq 0xABC 5) = some [⟨.write, 0x068, .w32, 0xABC5⟩]
      ∧ assemble (.setQos 6 0 0 1 0x40) = some [⟨.write, 0x06C, .w32, 0x4086⟩]
      ∧ assemble (.setAddr 1 2 0 0 0 0 1)
        = some [⟨.write, 0x048, .w32, 0x00000002⟩, ⟨.write, 0x04C, .w32, 0x0100⟩]
      ∧ assemble (.setSeq 0x1000 0) = none
      ∧ immediate ['0', 'x', '1', 'F'] = some 31 ∧ immediate ['2', '6'] = some 26
      ∧ stripComment ['R', ';', 'x'] = ['R'] := by decide

/-! ### Witnesses: states and operands that meet the hypotheses of each statement, at the boundaries of its clauses

`witness_<Name>` belongs to `Obligations.<Name>`. A statement without hypotheses has none. -/

theorem witness_StepRunsTheDecodedCommand :
    (tells State.reset 0x00050012).host = cmdWrite (tells State.reset 0x00050012).cfg 0x00050012 :: []
      ∧ decode 0x00050012#32 = .ok (.uiRemove 5) := by decide

theorem witness_PrologueOfEveryCommandWord :
    ((tells broken 0xFF).host = [cmdWrite (tells broken 0xFF).cfg 0xFF] ∧ (tells broken 0xFF).fatal = true)
      ∧ ((tells State.reset 0x102).host = [cmdWrite (tells State.reset 0x102).cfg 0x102]
        ∧ (tells State.reset 0x102).fatal = false ∧ legalWord 0x102 = false)
      ∧ ((tells State.reset 0x1A).host = [cmdWrite (tells State.reset 0x1A).cfg 0x1A]
        ∧ (tells State.reset 0x1A).fatal = false ∧ legalWord 0x1A = true) := by decide

/-- The last legal word of FBUF and the first illegal one. -/
theorem witness_IllegalAccessesAreExactlyTheBusErrors :
    ((asks State.reset ⟨.read, 0x17FC, .w32, 0⟩).host
        = Access.event Config.reference ⟨.read, 0x17FC, .w32, 0⟩ :: []
      ∧ target Config.reference 0x17FC .w32 = some (.buf 2044))
      ∧ ((asks State.reset ⟨.read, 0x1800, .w32, 0⟩).host
          = Access.event Config.reference ⟨.read, 0x1800, .w32, 0⟩ :: []
        ∧ target Config.reference 0x1800 .w32 = none) := by decide

/-- The first and the last register of the window. -/
theorem witness_RegisterReadsHaveNoSideEffect :
    (asks State.reset ⟨.read, 0x000, .w32, 0⟩).host
        = Access.event Config.reference ⟨.read, BitVec.ofNat 13 RegName.id.offset, .w32, 0⟩ :: []
      ∧ (asks State.reset ⟨.read, 0x114, .w32, 0⟩).host
        = Access.event Config.reference ⟨.read, BitVec.ofNat 13 RegName.uiW1.offset, .w32, 0⟩ :: [] := by decide

theorem witness_RegisterWritesReachTheirRegister :
    RegName.uiW1 ≠ .cmd ∧ (asks State.reset ⟨.write, 0x114, .w32, 7⟩).host
      = Access.event Config.reference ⟨.write, BitVec.ofNat 13 RegName.uiW1.offset, .w32, 7⟩ :: [] := by decide

theorem witness_RegistersFollowTheirAccessAndBits :
    RegName.inLen.access = .rw ∧ RegName.status.access ≠ .rw ∧ RegName.cmd.access ≠ .rw
      ∧ RegName.hdrA1Lo ≠ RegName.hdrA1Hi := by decide

/-- The last octet and the last word of FBUF. -/
theorem witness_BufferAccessesMoveTheirOctets :
    (State.reset.cfg.bufSize ≤ 4096 ∧ 2047 % Width.w8.octets = 0 ∧ 2047 + Width.w8.octets ≤ State.reset.cfg.bufSize
      ∧ (asks State.reset ⟨.read, 0x17FF, .w8, 0⟩).host
        = Access.event Config.reference ⟨.read, BitVec.ofNat 13 (0x1000 + 2047), .w8, 0⟩ :: [])
      ∧ (2044 % Width.w32.octets = 0 ∧ 2044 + Width.w32.octets ≤ State.reset.cfg.bufSize
        ∧ (asks State.reset ⟨.write, 0x17FC, .w32, 9⟩).host
          = Access.event Config.reference ⟨.write, BitVec.ofNat 13 (0x1000 + 2044), .w32, 9⟩ :: []) := by decide

/-- A write to the register after CMD, and a read of CMD. -/
theorem witness_HostAccessesLeaveReadOnlyStateAlone :
    (¬ (AccessKind.write = .write ∧ (0x014#13) = 0x010#13)
        ∧ answers (step (asks State.reset ⟨.write, 0x014, .w32, 5⟩)) (fun _ => true) = true)
      ∧ (¬ (AccessKind.read = .write ∧ (0x010#13) = 0x010#13)
        ∧ answers (step (asks State.reset ⟨.read, 0x010, .w32, 5⟩)) (fun _ => true) = true) := by decide

/-- The addresses next to a window at 0x10000. -/
theorem witness_TheEngineActsOnlyOnItsOwnEvents :
    State.reset.host = []
      ∧ 0xFFFF < ({ Config.reference with fceBase := 0x10000 } : Params).fceBase
      ∧ ({ Config.reference with fceBase := 0x10000 } : Params).fceBase + 0x2000 ≤ 0x12000 := by decide

theorem witness_EveryCommandIsFailureAtomic :
    answers (exec .hdrSize (held 0x0048)) (fun t => t.err != 0) = true := by decide

theorem witness_StatusOfEveryOutcome :
    answers (exec .nop State.reset) (fun t => t.err == 0) = true
      ∧ answers (exec (.uiRead 0) State.reset) (fun t => t.err == 6) = true
      ∧ answers (exec .hdrSize (held 0x0048)) (fun t => t.err == 10) = true := by decide

/-- Each outcome of the table, and a legal access that cannot raise Fatal. -/
theorem witness_EachOutcomeIsRaisedOnlyByItsCommands :
    answers (exec .hdrDecode (wire 0x80 0 1)) (fun t => t.err == 1) = true
      ∧ answers (exec .trgDecode (body 1 3 5 1 24)) (fun t => t.err == 2) = true
      ∧ answers (exec .trgDecode (body 3 2 5 5 19)) (fun t => t.err == 3) = true
      ∧ answers (exec .hdrEncode (beaconAt 2025)) (fun t => t.err == 4) = true
      ∧ answers (exec .uiInsert (full 0x00000021)) (fun t => t.err == 5) = true
      ∧ answers (exec (.uiLookup 6) (table 3)) (fun t => t.err == 6) = true
      ∧ answers (exec .addrResolve (held 0x0080)) (fun t => t.err == 9) = true
      ∧ answers (exec .trgSize (table 5)) (fun t => t.err == 10) = true
      ∧ ((tells State.reset 0x1A).host = Access.event Config.reference ⟨.write, 0x010, .w32, 0x1A⟩ :: []
        ∧ (tells State.reset 0x1A).InService ∧ decode 0x1A = .ok .trgDecode
        ∧ Instr.trgDecode ∉ [.hdrSize, .hdrEncode, .hdrDecode, .addrResolve, .trgSize, .trgEncode])
      ∧ LegalAccess Config.reference 0x010 .w32 := by
  refine ⟨by decide, by decide, by decide, by decide, by decide, by decide, by decide, by decide, by decide, ?_⟩
  exact .inl ⟨by decide, rfl, by decide, .cmd, rfl⟩

theorem witness_FatalIsLatchedUntilReset :
    (broken.fatal = true ∧ (tells broken 0x03).host.head? ≠ some .reset
        ∧ answers (step (tells broken 0x03)) (fun _ => true) = true)
      ∧ ({ broken with host := [.reset] } : State).host = .reset :: [] := by decide

theorem witness_ResetClearsEveryRegister :
    ({ broken with host := [.reset] } : State).host = .reset :: [] ∧ broken.fatal = true
      ∧ answers (step { broken with host := [.reset] }) (fun t => !t.fatal) = true := by decide

/-- The smallest and the largest legal build. -/
theorem witness_ResetStateMeetsTheInvariant :
    Params.WellFormed ⟨64, 1, .insertion, 0, 0, 0, 0⟩
      ∧ Params.WellFormed ⟨4096, 255, .aidAsc, 0xFFFF, 0x3B04, 0xFFFF, 0x40000000⟩ := by decide

/-- A full table, a Fatal state and a plain one, each with a step. -/
theorem witness_EveryStepKeepsTheInvariant :
    ((tells (full 0x21) 0x11).Inv ∧ answers (step (tells (full 0x21) 0x11)) (fun _ => true) = true)
      ∧ ((tells broken 0x11).Inv ∧ answers (step (tells broken 0x11)) (fun _ => true) = true)
      ∧ ((tells beacon 0x02).Inv ∧ answers (step (tells beacon 0x02)) (fun _ => true) = true) :=
  ⟨⟨by decide, by decide⟩, ⟨by decide, by decide⟩, by decide, by decide⟩

theorem witness_OnlyTheNamedCommandsWriteEachPieceOfState :
    answers (exec (.uiLookup 5) (table 3)) (fun t => t.err == 0) = true := by decide

/-- One value of each class; the first and the last subtype. -/
theorem witness_RecognitionFollowsTheMasks :
    Config.reference.WellFormed ∧ fcType 0x00FC = 3 ∧ fcType 0x0000 = 0 ∧ fcType 0x00F0 = 0
      ∧ fcType 0x00D4 = 1 ∧ recognized Config.reference 0x00D4 = true ∧ fcType 0x0008 = 2 ∧ fcType 0x00F8 = 2 := by
  decide

theorem witness_LayoutsAreThoseOfTheTable :
    fcType 0x8388 = 2 ∧ fcType 0x8380 = 0 ∧ (fcType 0x00C4 = 1 ∧ fcSubtype 0x00C4 = 12)
      ∧ (fcType 0x00B4 = 1 ∧ fcSubtype 0x00B4 ≠ 12 ∧ fcSubtype 0x00B4 ≠ 13) := by decide

theorem witness_HeaderSizesLieBetweenTenAndThirtySix :
    recognized Config.reference 0x00C4 = true ∧ recognized Config.reference 0x8388 = true := by decide

/-- Two values that differ in every other bit. -/
theorem witness_LayoutDependsOnFiveFieldsAlone :
    (0x0388#16) ≠ 0x7F8B#16 ∧ fcType 0x0388 = fcType 0x7F8B ∧ fcSubtype 0x0388 = fcSubtype 0x7F8B
      ∧ fcToDs 0x0388 = fcToDs 0x7F8B ∧ fcFromDs 0x0388 = fcFromDs 0x7F8B
      ∧ fcOrder 0x0388 = fcOrder 0x7F8B := by decide

theorem witness_NopChangesOnlyTheOutcome : State.reset.fatal = false ∧ broken.fatal = true := by decide

theorem witness_HdrSizeWritesTheHeaderSize :
    beacon.fatal = false ∧ recognized beacon.cfg beacon.hdr.fc = true
      ∧ (held 0x000C).fatal = false ∧ recognized (held 0x000C).cfg (held 0x000C).hdr.fc = false := by decide

/-- The first offset at which a Beacon does not fit, and the last at which it does. -/
theorem witness_HdrEncodeWritesTheHeader :
    (held 0x000C).fatal = false ∧ recognized (held 0x000C).cfg (held 0x000C).hdr.fc = false
      ∧ beacon.fatal = false ∧ recognized beacon.cfg beacon.hdr.fc = true
      ∧ (beaconAt 2025).cfg.bufSize < (beaconAt 2025).bufOff.toNat + hdrSize (beaconAt 2025).hdr.fc
      ∧ (beaconAt 2024).bufOff.toNat + hdrSize (beaconAt 2024).hdr.fc ≤ (beaconAt 2024).cfg.bufSize := by decide

/-- A Beacon with A4 and HT control left over (row H15's ignored registers). -/
theorem witness_HdrEncodeIgnoresAbsentFields :
    ({ beacon.hdr with a4 := addr 4, htc := 0x12345678 } : Hdr) ≠ beacon.hdr
      ∧ ∀ f ∈ layout beacon.hdr.fc,
        Hdr.get { beacon.hdr with a4 := addr 4, htc := 0x12345678 } f.field = beacon.hdr.get f.field := by decide

/-- Row D20 with exactly the header's octets, at the end of FBUF. -/
theorem witness_HdrDecodeReadsTheHeader :
    (cts 2038 10).fatal = false ∧ (cts 2038 10).bufOff.toNat + (cts 2038 10).inLen.toNat = (cts 2038 10).cfg.bufSize
      ∧ recognized (cts 2038 10).cfg (cts 2038 10).wireFc = true
      ∧ hdrSize (cts 2038 10).wireFc = (cts 2038 10).inLen.toNat := by decide

/-- Rows D22, D2, D3 and D19, each at the boundary of its check. -/
theorem witness_HdrDecodeRaisesInTheOrderOfItsChecks :
    ((cts 2040 9).fatal = false ∧ (cts 2040 9).cfg.bufSize < (cts 2040 9).bufOff.toNat + (cts 2040 9).inLen.toNat)
      ∧ (wire 0x80 0 1).bufOff.toNat + (wire 0x80 0 1).inLen.toNat ≤ (wire 0x80 0 1).cfg.bufSize
      ∧ (wire 0x80 0 1).inLen.toNat < 2
      ∧ (2 ≤ (wire 0x0C 0 2).inLen.toNat ∧ recognized (wire 0x0C 0 2).cfg (wire 0x0C 0 2).wireFc = false)
      ∧ (2 ≤ (cts 0 9).inLen.toNat ∧ recognized (cts 0 9).cfg (cts 0 9).wireFc = true
        ∧ (cts 0 9).inLen.toNat < hdrSize (cts 0 9).wireFc ∧ has4 (cts 0 9).wireFc = false) := by decide

/-- Rows D12, D11 and D15: 2, 29 and 30 octets. -/
theorem witness_TruncatedFourAddressFrameIsFatal :
    (qos4 29).fatal = false ∧ recognized (qos4 29).cfg (qos4 29).wireFc = true ∧ fcType (qos4 29).wireFc = 2
      ∧ fcToDs (qos4 29).wireFc = true ∧ fcFromDs (qos4 29).wireFc = true
      ∧ (2 ≤ (qos4 2).inLen.toNat ∧ (qos4 2).inLen.toNat < 30) ∧ (qos4 29).inLen.toNat < 30
      ∧ (30 ≤ (qos4 30).inLen.toNat ∧ (qos4 30).inLen.toNat < hdrSize (qos4 30).wireFc) := by decide

/-- FBUF with another octet after the header. -/
theorem witness_HdrDecodeReadsOnlyTheHeader :
    (cts 0 10).fbuf ++ [(10, 0xAA)] ≠ (cts 0 10).fbuf ∧ (cts 0 10).bufOff.toNat = 0 ∧ hdrSize (cts 0 10).wireFc = 10
      ∧ ∀ a < 10, State.octet { cts 0 10 with fbuf := (cts 0 10).fbuf ++ [(10, 0xAA)] } a = (cts 0 10).octet a := by
  decide

/-- The same, confined to IN_LEN octets. -/
theorem witness_HdrDecodeIsTotalAndConfined :
    (cts 0 10).fatal = false ∧ (cts 0 10).bufOff.toNat = 0 ∧ (cts 0 10).inLen.toNat = 10
      ∧ ∀ a < 10, State.octet { cts 0 10 with fbuf := (cts 0 10).fbuf ++ [(10, 0xAA)] } a = (cts 0 10).octet a := by
  decide

theorem witness_AddrResolveWritesTheRoles :
    ((held 0x0008).fatal = false ∧ recognized Config.reference 0x0008 = true ∧ fcType 0x0008 = 2)
      ∧ (recognized Config.reference 0x0308 = true ∧ fcType 0x0308 = 2)
      ∧ recognized Config.reference 0x0048 = false
      ∧ (recognized Config.reference 0x0080 = true ∧ fcType 0x0080 ≠ 2) := by decide

theorem witness_HdrClearZeroesTheHeader : beacon.fatal = false := by decide

/-- A canonical Beacon at the last offset, with IN_LEN its size. -/
theorem witness_HeaderRoundTrip :
    (beaconAt 2024).fatal = false ∧ recognized (beaconAt 2024).cfg (beaconAt 2024).hdr.fc = true
      ∧ hdrSize (beaconAt 2024).hdr.fc ≤ (24#13).toNat
      ∧ (beaconAt 2024).bufOff.toNat + (24#13).toNat ≤ (beaconAt 2024).cfg.bufSize
      ∧ (beaconAt 2024).hdr.Canonical (beaconAt 2024).cfg :=
  ⟨by decide, by decide, by decide, by decide, by decide, fun f => by cases f <;> decide⟩

theorem witness_HdrSizeAgreesWithHdrEncode :
    (beaconAt 2024).fatal = false ∧ recognized (beaconAt 2024).cfg (beaconAt 2024).hdr.fc = true
      ∧ (beaconAt 2024).bufOff.toNat + hdrSize (beaconAt 2024).hdr.fc ≤ (beaconAt 2024).cfg.bufSize := by decide

theorem witness_SerializationOrder :
    ((table 3).TableOk ∧ (table 3).cfg.uiOrder = .insertion)
      ∧ (tableAsc.TableOk ∧ tableAsc.cfg.uiOrder = .aidAsc) := by decide

theorem witness_UiClearEmptiesTheTable : (table 3).fatal = false ∧ (table 3).ui ≠ [] := by decide

/-- A replacement of the second entry, an insertion with one place left, and one with none. -/
theorem witness_UiInsertReplacesOrAppends :
    ((staging 0x00410001 0).fatal = false ∧ (staging 0x00410001 0).TableOk
        ∧ (staging 0x00410001 0).ui = [u5] ++ u1 :: [u2007]
        ∧ u1.aid = (staging 0x00410001 0).uiW0.extractLsb' 0 12)
      ∧ ((staging 0x21 0).TableOk ∧ (full 0x21).TableOk)
      ∧ ((∀ x ∈ (staging 0x21 0).ui, x.aid ≠ (staging 0x21 0).uiW0.extractLsb' 0 12)
        ∧ (staging 0x21 0).ui.length ≠ (staging 0x21 0).cfg.uiCap)
      ∧ ((∀ x ∈ (full 0x21).ui, x.aid ≠ (full 0x21).uiW0.extractLsb' 0 12)
        ∧ (full 0x21).ui.length = (full 0x21).cfg.uiCap) := by decide

theorem witness_UiInsertIsIdempotent :
    (staging 0x21 0).fatal = false
      ∧ answers (exec .uiInsert (staging 0x21 0)) (fun t => t.ui.length == 4) = true := by decide

/-- The first and the last entry, and an absent AID. -/
theorem witness_UiRemoveCompactsTheTable :
    ((table 3).fatal = false ∧ (table 3).TableOk)
      ∧ ((table 3).ui = [] ++ u5 :: [u1, u2007] ∧ u5.aid = 5)
      ∧ ((table 3).ui = [u5, u1] ++ u2007 :: [] ∧ u2007.aid = 2007)
      ∧ (∀ x ∈ (table 3).ui, x.aid ≠ 6) := by decide

theorem witness_SecondRemovalIsNotFound :
    (table 3).fatal = false ∧ (table 3).TableOk ∧ ∃ e ∈ (table 3).ui, e.aid = 2007 := by decide

theorem witness_UiLookupStagesTheEntry :
    (tableAsc.fatal = false ∧ tableAsc.TableOk ∧ u2007 ∈ tableAsc.ui ∧ u2007.aid = 2007)
      ∧ ∀ e ∈ tableAsc.ui, e.aid ≠ 6 := by decide

/-- The last position of a table of three, and the first past it. -/
theorem witness_UiReadStagesTheEntryAtAPosition :
    (table 3).fatal = false ∧ (table 3).serial[(2#16).toNat]? = some u2007
      ∧ (2#16).toNat < (table 3).ui.length ∧ (table 3).ui.length ≤ (3#16).toNat := by decide

/-- The four selectors, and the unrecognized ones next to them. -/
theorem witness_TrgSizeWritesTheBodySize :
    (table 3).fatal = false
      ∧ [0, 2, 3, 4].map (fun k => (table (BitVec.ofNat 64 k)).trgCi.extractLsb' 0 4) = [0#4, 2#4, 3#4, 4#4]
      ∧ [1, 5, 15].map (fun k => (table (BitVec.ofNat 64 k)).trgCi.extractLsb' 0 4) = [1#4, 5#4, 15#4] := by decide

/-- Row TC1, and the last offset at which the body fits and the next. -/
theorem witness_TrgEncodeWritesTheBody :
    (table 5).trgType? = none ∧ (table 5).fatal = false
      ∧ (tableAt 2024).trgType? = some .muRts ∧ (tableAt 2024).fatal = false
      ∧ (tableAt 2025).cfg.bufSize < (tableAt 2025).bufOff.toNat + trgSizeOf .muRts (tableAt 2025).ui.length
      ∧ (tableAt 2024).bufOff.toNat + trgSizeOf .muRts (tableAt 2024).ui.length ≤ (tableAt 2024).cfg.bufSize := by
  decide

theorem witness_UiReadYieldsTheEncodedRecords :
    (table 3).fatal = false ∧ (table 3).trgType? = some .muRts
      ∧ answers (exec .trgEncode (table 3)) (fun t => t.err == 0) = true
      ∧ (2#16).toNat < (table 3).ui.length := by decide

/-- Row T1's body with exactly its octets, and the empty body (row E4). -/
theorem witness_TrgDecodeReadsTheBody :
    ((body 3 3 5 1 24).fatal = false
        ∧ (body 3 3 5 1 24).bufOff.toNat + (body 3 3 5 1 24).inLen.toNat ≤ (body 3 3 5 1 24).cfg.bufSize
        ∧ TrgType.ofSelector (BitVec.ofNat 4 ((body 3 3 5 1 24).memRead 0 8)) = some .muRts
        ∧ 3 = ((body 3 3 5 1 24).octet 8).toNat ∧ 9 + 3 * recSize .muRts = (body 3 3 5 1 24).inLen.toNat
        ∧ 3 ≤ (body 3 3 5 1 24).cfg.uiCap
        ∧ ∀ k < 3, ∀ j < k, (body 3 3 5 1 24).memRead (9 + j * 5) 5 % 4096
          ≠ (body 3 3 5 1 24).memRead (9 + k * 5) 5 % 4096)
      ∧ (0 = ((body 3 0 5 1 9).octet 8).toNat ∧ 9 + 0 * recSize .muRts = (body 3 0 5 1 9).inLen.toNat) := by decide

/-- Rows E9, E1, E2, a body one octet short, a body of one entry too many, and row E6. -/
theorem witness_TrgDecodeRaisesInTheOrderOfItsChecks :
    ((bodyAt 2040 9).fatal = false
        ∧ (bodyAt 2040 9).cfg.bufSize < (bodyAt 2040 9).bufOff.toNat + (bodyAt 2040 9).inLen.toNat)
      ∧ ((body 3 3 5 1 8).fatal = false
        ∧ (body 3 33 5 1 174).bufOff.toNat + (body 3 33 5 1 174).inLen.toNat ≤ (body 3 33 5 1 174).cfg.bufSize)
      ∧ ((body 3 3 5 1 8).inLen.toNat < 9)
      ∧ (9 ≤ (body 1 3 5 1 24).inLen.toNat ∧ TrgType.ofSelector (ciSelector (body 1 3 5 1 24).wireCi) = none)
      ∧ (TrgType.ofSelector (ciSelector (body 3 3 5 1 23).wireCi) = some .muRts
        ∧ (body 3 3 5 1 23).inLen.toNat < trgSizeOf .muRts (body 3 3 5 1 23).wireUsers)
      ∧ (trgSizeOf .muRts (body 3 33 5 1 174).wireUsers ≤ (body 3 33 5 1 174).inLen.toNat
        ∧ (body 3 33 5 1 174).cfg.uiCap < (body 3 33 5 1 174).wireUsers)
      ∧ (trgSizeOf .muRts (body 3 2 5 5 19).wireUsers ≤ (body 3 2 5 5 19).inLen.toNat
        ∧ (parse ((body 3 2 5 5 19).memRead 9 5) .muRts).aid
          = (parse ((body 3 2 5 5 19).memRead 14 5) .muRts).aid) := by decide

theorem witness_NumUsersEqualsTheListCardinality :
    ((table 3).Inv ∧ answers (exec .trgEncode (table 3)) (fun t => t.err == 0) = true)
      ∧ ((body 3 3 5 1 24).Inv ∧ answers (exec .trgDecode (body 3 3 5 1 24)) (fun t => t.err == 0) = true) :=
  ⟨⟨by decide, by decide⟩, by decide, by decide⟩

/-- A table of three with room for exactly its body. -/
theorem witness_TriggerRoundTrip :
    tableAsc.fatal = false ∧ tableAsc.cfg.WellFormed ∧ tableAsc.TableOk ∧ tableAsc.trgType? = some .muRts
      ∧ trgSizeOf .muRts tableAsc.ui.length ≤ (24#13).toNat
      ∧ tableAsc.bufOff.toNat + (24#13).toNat ≤ tableAsc.cfg.bufSize := by decide

theorem witness_BodyOfATableDoesNotDependOnItsOrder :
    tableAsc.TableOk ∧ [u2007, u5, u1].Perm tableAsc.ui ∧ tableAsc.cfg.uiOrder = .aidAsc := by decide

theorem witness_TrgSizeAgreesWithTrgEncode :
    (table 3).fatal = false ∧ answers (exec .trgEncode (table 3)) (fun t => t.err == 0) = true := by decide

theorem witness_CmdLinesWriteTheCommandWord : Instr.trgDecode.arg = 0 ∧ (Instr.uiRemove 0).arg = 0 := by decide

/-- The largest operands that fit, and the smallest that do not. -/
theorem witness_PackingLinesFillTheSubfields :
    (4095 < 4096 ∧ 15 < 16) ∧ ¬ (4096 < 4096 ∧ 0 < 16)
      ∧ (15 < 16 ∧ 1 < 2 ∧ 3 < 4 ∧ 1 < 2 ∧ 255 < 256) ∧ ¬ (0 < 16 ∧ 2 < 2 ∧ 0 < 4 ∧ 0 < 2 ∧ 0 < 256)
      ∧ (4095 < 4096 ∧ 255 < 256 ∧ 1 < 2 ∧ 15 < 16 ∧ 1 < 2 ∧ 63 < 64)
      ∧ ¬ (0 < 4096 ∧ 0 < 256 ∧ 0 < 2 ∧ 0 < 16 ∧ 0 < 2 ∧ 64 < 64) := by decide

end Sys2Proof.Tests
end

section
/-! SUPPORT. A step that serves one host access, and the memory obligations settled from it (spec 20_memory.md R60 to R66). -/

namespace Sys2Proof.Machine

/-! ### What a step makes of the host's answer -/

/-- A served access, reset or idle step goes on (R60). -/
theorem step_of_done {s u : State} (h : serveHost s = .done u) : step s = .next u := by
  simp [step, h]

/-- The one fault of a step is a bus error of the access it serves: a command, legal or not, never faults (R63, R134). -/
theorem step_eq_fault_iff (s : State) (n : Nat) :
    step s = .fault (.busError n) ↔ serveHost s = .busError n := by
  cases h : serveHost s with
  | done u => simp [step, h]
  | busError m => simp [step, h]
  | command w u =>
    cases hd : decode w with
    | ok i => simp [step, h, hd, exec_eq]
    | error e => simp [step, h, hd]

/-! ### One access -/

/-- Only an access without a target is answered by a bus error, under its own index (R62 to R64). -/
theorem serveAccess_eq_busError_iff (a : Access) (s : State) (n : Nat) :
    serveAccess a s = .busError n ↔ ¬ LegalAccess s.cfg a.offset a.width ∧ s.accessIndex = n := by
  rw [← exists_target_iff]
  rcases serveAccess_cases a s with ⟨ht, he⟩ | ⟨t, ht, -, he⟩ | ⟨ht, -, he⟩ | ⟨t, ht, -, -, he⟩ <;>
    simp [ht, he]

/-- What a read returns does not depend on the host's pending events (R62, R64). -/
theorem readTarget_host (s : State) (rest : List HostEvent) (t : Target) (w : Width) :
    State.readTarget { s with host := rest } t w = s.readTarget t w := by
  cases t with
  | reg r => rfl
  | buf a =>
    exact congrArg (BitVec.ofNat 32)
      (memRead_congr (s := s) (t := { s with host := rest }) rfl rfl a w.octets)

/-- The step of a read that reaches a target appends its value to what the host has read (R62, R64). -/
theorem step_read {s : State} {o : BitVec 13} {w : Width} {d : Word} {rest : List HostEvent} {t : Target}
    (h : s.host = Access.event s.cfg ⟨.read, o, w, d⟩ :: rest) (ht : target s.cfg o w = some t) :
    step s = .next { s with
      host := rest, accessIndex := s.accessIndex + 1, reads := s.reads ++ [s.readTarget t w] } := by
  apply step_of_done
  rw [serveHost_event h]
  simp only [serveAccess, ht, readTarget_host]

/-- The step of a write that reaches a target other than CMD writes that target alone (R25, R64). -/
theorem step_write {s : State} {o : BitVec 13} {w : Width} {d : Word} {rest : List HostEvent} {t : Target}
    (h : s.host = Access.event s.cfg ⟨.write, o, w, d⟩ :: rest) (ht : target s.cfg o w = some t)
    (hc : t ≠ .reg .cmd) :
    step s = .next { State.writeTarget { s with host := rest } t w d with
      accessIndex := s.accessIndex + 1 } := by
  apply step_of_done
  rw [serveHost_event h]
  simp only [serveAccess, ht, if_neg hc]

/-- The octet that `MemWrite` puts at place `i`, as a bit field of the datum (R11). -/
theorem ofNat_div_pow_eq_extractLsb' {n : Nat} (v : BitVec n) (i : Nat) :
    BitVec.ofNat 8 (v.toNat / 256 ^ i) = v.extractLsb' (8 * i) 8 := by
  apply BitVec.eq_of_toNat_eq
  rw [BitVec.toNat_ofNat, BitVec.extractLsb'_toNat, Nat.shiftRight_eq_div_pow, pow_mul,
    show 2 ^ 8 = 256 by decide]

/-! ### The obligations -/

/-- Settles O6: a step faults exactly when the served access has no target, and the targets are the legal accesses. -/
theorem illegalAccessesAreExactlyTheBusErrors : Obligations.IllegalAccessesAreExactlyTheBusErrors := by
  intro s a rest h
  rw [step_eq_fault_iff, serveHost_event h, serveAccess_eq_busError_iff]
  exact and_iff_left rfl

/-- Settles O10: the access reaches the octet `a` of the buffer, and the write is a `MemWrite` there. -/
theorem bufferAccessesMoveTheirOctets : Obligations.BufferAccessesMoveTheirOctets := by
  intro s a w v rest hsize halign hend
  have ht : target s.cfg (BitVec.ofNat 13 (0x1000 + a)) w = some (.buf a) :=
    target_buf s.cfg a w hsize halign hend
  refine ⟨fun h => step_read h ht, fun h => ⟨_, step_write h ht (by simp), rfl, fun i hi => ?_, fun x hx => ?_⟩⟩
  · calc State.octet _ (a + i) = (s.memWrite a w.octets v.toNat).octet (a + i) := octet_congr rfl rfl _
      _ = BitVec.ofNat 8 (v.toNat / 256 ^ i) := octet_memWrite_inside s a w.octets v.toNat i hi
      _ = v.extractLsb' (8 * i) 8 := ofNat_div_pow_eq_extractLsb' v i
  · calc State.octet _ x = (s.memWrite a w.octets v.toNat).octet x := octet_congr rfl rfl _
      _ = s.octet x := octet_memWrite_outside s a w.octets v.toNat x hx

end Sys2Proof.Machine
end

section
/-! SUPPORT. Frame control recognition, the header layouts class by class, and the record fields, with the encoding obligations settled from them (spec 30_encoding.md R95 to R107, R129). -/

namespace Sys2Proof.Machine

/-! ### Recognition (R96, R97) -/

theorem recognized_of_reserved (p : Params) {fc : Half} (h : fcType fc = 3) : recognized p fc = false := by
  simp [recognized, h]

theorem recognized_of_mgmt (p : Params) {fc : Half} (h : fcType fc = 0) :
    recognized p fc = p.recogMgmt.getLsbD (fcSubtype fc).toNat := by
  simp [recognized, h]

theorem recognized_of_ctrl (p : Params) {fc : Half} (h : fcType fc = 1) :
    recognized p fc = p.recogCtrl.getLsbD (fcSubtype fc).toNat := by
  simp [recognized, h]

theorem recognized_of_data (p : Params) {fc : Half} (h : fcType fc = 2) :
    recognized p fc = p.recogData.getLsbD (fcSubtype fc).toNat := by
  simp [recognized, h]

/-- A legal build's control mask keeps within the mask of R9. -/
theorem getLsbD_ctrlMask {p : Params} (hp : p.recogCtrlOk) {n : Nat} (h : p.recogCtrl.getLsbD n = true) :
    (0x3B04#16).getLsbD n = true := by
  rw [← hp, BitVec.getLsbD_and, Bool.and_eq_true] at h
  exact h.2

/-- The control subtypes whose size the source gives (R9). -/
theorem mem_of_getLsbD_ctrlMask :
    ∀ b : BitVec 4, (0x3B04#16).getLsbD b.toNat = true → b.toNat ∈ [2, 8, 9, 11, 12, 13] := by
  decide

/-! ### The predicates of the layout, class by class (R104) -/

theorem has4_of_data {fc : Half} (h : fcType fc = 2) : has4 fc = (fcToDs fc && fcFromDs fc) := by
  simp [has4, isData, h]

theorem hasQos_of_data {fc : Half} (h : fcType fc = 2) : hasQos fc = fc.getLsbD 7 := by
  simp [hasQos, isData, h]

theorem hasHtc_of_data {fc : Half} (h : fcType fc = 2) : hasHtc fc = (fc.getLsbD 7 && fcOrder fc) := by
  rw [hasHtc, hasQos_of_data h]

theorem isShort_of_ctrl {fc : Half} (h : fcType fc = 1) :
    isShort fc = true ↔ fcSubtype fc = 12 ∨ fcSubtype fc = 13 := by
  simp [isShort, h]

/-- The QoS bit lies within SUBTYPE (R104: subtype bit 0x08). -/
theorem getLsbD_seven (fc : Half) : fc.getLsbD 7 = (fcSubtype fc).getLsbD 3 := by
  simp [fcSubtype]

/-! ### The layouts (R105) -/

/-- The six fields that every data and management header begins with (R105). -/
def baseFields : List FieldAt :=
  [⟨.fc, 0, 2⟩, ⟨.dur, 2, 2⟩, ⟨.a1, 4, 6⟩, ⟨.a2, 10, 6⟩, ⟨.a3, 16, 6⟩, ⟨.seq, 22, 2⟩]

theorem layout_of_data {fc : Half} (h : fcType fc = 2) :
    layout fc = baseFields ++ (if has4 fc then [⟨.a4, 24, 6⟩] else [])
      ++ (if hasQos fc then [⟨.qos, 24 + 6 * (has4 fc).toNat, 2⟩] else [])
      ++ (if hasHtc fc then [⟨.htc, 26 + 6 * (has4 fc).toNat, 4⟩] else []) := by
  simp [layout, baseFields, isShort, h]

theorem hdrSize_of_data {fc : Half} (h : fcType fc = 2) :
    hdrSize fc = 24 + 6 * (has4 fc).toNat + 2 * (hasQos fc).toNat + 4 * (hasHtc fc).toNat := by
  simp [hdrSize, isShort, h]

theorem layout_of_mgmt {fc : Half} (h : fcType fc = 0) : layout fc = baseFields := by
  simp [layout, baseFields, isShort, has4, hasQos, hasHtc, isData, h]

theorem hdrSize_of_mgmt {fc : Half} (h : fcType fc = 0) : hdrSize fc = 24 := by
  simp [hdrSize, h]

theorem layout_of_ctrl {fc : Half} (h : fcType fc = 1) :
    layout fc = [⟨.fc, 0, 2⟩, ⟨.dur, 2, 2⟩, ⟨.a1, 4, 6⟩] ++ (if isShort fc then [] else [⟨.a2, 10, 6⟩]) := by
  simp [layout, has4, hasQos, hasHtc, isData, h]

theorem hdrSize_of_ctrl {fc : Half} (h : fcType fc = 1) : hdrSize fc = if isShort fc then 10 else 16 := by
  simp [hdrSize, h]

/-- The last field of a layout ends where the header does (R104). -/
theorem getLast_layout_end {fc : Half} (h : fcType fc ≠ 3) :
    ∃ e ∈ (layout fc).getLast?, e.off + e.width = hdrSize fc := by
  rcases layout_cases h with ⟨f, q, c, hqc, _, hl, hz⟩ | ⟨_, hl, hz⟩ | ⟨_, hl, hz⟩
  · rw [hl, hz]
    cases f <;> cases q <;> cases c <;> simp_all
  · rw [hl, hz]; simp
  · rw [hl, hz]; simp

/-- The fields of a layout fill the header (R104). -/
theorem sum_width_layout {fc : Half} (h : fcType fc ≠ 3) :
    ((layout fc).map FieldAt.width).sum = hdrSize fc := by
  rcases layout_cases h with ⟨f, q, c, _, _, hl, hz⟩ | ⟨_, hl, hz⟩ | ⟨_, hl, hz⟩
  · rw [hl, hz]
    cases f <;> cases q <;> cases c <;> rfl
  · rw [hl, hz]; rfl
  · rw [hl, hz]; rfl

/-! ### The fields of a record (R129) -/

/-- The octets of W0 and of URSVD stand first in a record of every variant. -/
theorem extract_serialize_common (e : UiEntry) (t : TrgType) :
    (BitVec.ofNat 56 (serialize e t)).extractLsb' 0 32 = e.w0
      ∧ (BitVec.ofNat 56 (serialize e t)).extractLsb' 32 8 = e.w1.extractLsb' 0 8 := by
  have := e.w0.isLt
  constructor <;> apply BitVec.eq_of_toNat_eq <;>
    simp only [BitVec.extractLsb'_toNat, BitVec.toNat_ofNat, serialize_eq, Nat.shiftRight_eq_div_pow]
  · cases t <;> simp only <;> omega
  · cases t <;> simp only <;> omega

/-- The sixth octet of a Basic record is the extra octet of W1. -/
theorem extract_serialize_basic (e : UiEntry) :
    (BitVec.ofNat 56 (serialize e .basic)).extractLsb' 40 8 = e.w1.extractLsb' 8 8 := by
  have := e.w0.isLt
  apply BitVec.eq_of_toNat_eq
  simp only [BitVec.extractLsb'_toNat, BitVec.toNat_ofNat, serialize_eq, Nat.shiftRight_eq_div_pow]
  omega

/-- The last two octets of an MU-BAR record are BARCTL. -/
theorem extract_serialize_muBar (e : UiEntry) :
    (BitVec.ofNat 56 (serialize e .muBar)).extractLsb' 40 16 = e.w1.extractLsb' 16 16 := by
  have := e.w0.isLt
  apply BitVec.eq_of_toNat_eq
  simp only [BitVec.extractLsb'_toNat, BitVec.toNat_ofNat, serialize_eq, Nat.shiftRight_eq_div_pow]
  omega

theorem parse_w0 (n : Nat) (t : TrgType) : (parse n t).w0 = (BitVec.ofNat 56 n).extractLsb' 0 32 := by
  cases t <;> rfl

/-- W1 of a parsed record, put together from URSVD, the Basic octet and BARCTL, each 0 where the variant lacks it. -/
theorem parse_w1 (n : Nat) (t : TrgType) :
    (parse n t).w1 = (if t = .muBar then (BitVec.ofNat 56 n).extractLsb' 40 16 else 0)
      ++ (if t = .basic then (BitVec.ofNat 56 n).extractLsb' 40 8 else 0)
      ++ (BitVec.ofNat 56 n).extractLsb' 32 8 := by
  cases t <;> simp [parse]

/-- The three parts of a word put together from them. -/
theorem extract_append_three (a : BitVec 16) (b c : BitVec 8) :
    (a ++ b ++ c).extractLsb' 0 8 = c ∧ (a ++ b ++ c).extractLsb' 8 8 = b
      ∧ (a ++ b ++ c).extractLsb' 16 16 = a := by
  have := a.isLt
  have := b.isLt
  have := c.isLt
  refine ⟨?_, ?_, ?_⟩ <;> apply BitVec.eq_of_toNat_eq <;>
    simp only [BitVec.extractLsb'_toNat, toNat_append_three, Nat.shiftRight_eq_div_pow] <;> omega

/-! ### The obligations -/

/-- Settles O23, class by class; R9 bounds the control mask. -/
theorem recognitionFollowsTheMasks : Obligations.RecognitionFollowsTheMasks := by
  intro p fc ⟨_, _, hctrl⟩
  refine ⟨recognized_of_reserved p, recognized_of_mgmt p, recognized_of_ctrl p, recognized_of_data p,
    fun ht hr => ?_⟩
  rw [recognized_of_ctrl p ht] at hr
  exact mem_of_getLsbD_ctrlMask _ (getLsbD_ctrlMask hctrl hr)

/-- Settles O24: a data layout is read off its three bits, the others off TYPE and `isShort`. -/
theorem layoutsAreThoseOfTheTable : Obligations.LayoutsAreThoseOfTheTable := by
  intro fc
  refine ⟨fun ht => ?_, fun ht => ?_, fun ht hs => ?_, fun ht h12 h13 => ?_⟩
  · rw [layout_of_data ht, hdrSize_of_data ht, has4_of_data ht, hasHtc_of_data ht, hasQos_of_data ht]
    generalize (fcToDs fc && fcFromDs fc) = four, fc.getLsbD 7 = qos, fcOrder fc = order
    cases four <;> cases qos <;> cases order <;> rfl
  · rw [layout_of_mgmt ht, hdrSize_of_mgmt ht]
    rfl
  · have hshort : isShort fc = true := (isShort_of_ctrl ht).2 hs
    simp [layout_of_ctrl ht, hdrSize_of_ctrl ht, hshort]
  · have hlong : isShort fc = false := by
      rw [Bool.eq_false_iff, ne_eq, isShort_of_ctrl ht]
      exact not_or.2 ⟨h12, h13⟩
    simp [layout_of_ctrl ht, hdrSize_of_ctrl ht, hlong]

/-- Settles O25: the bounds hold of every layout, and ACK, CTS and the longest QoS data header reach them. -/
theorem headerSizesLieBetweenTenAndThirtySix : Obligations.HeaderSizesLieBetweenTenAndThirtySix := by
  refine ⟨fun p fc hr => ?_, by decide, by decide, by decide⟩
  have ht : fcType fc ≠ 3 := fcType_ne_of_recognized hr
  exact ⟨le_hdrSize fc, hdrSize_le fc, sum_width_layout ht, getLast_layout_end ht⟩

/-- Settles O48: a serialized entry's fields one by one, and the parsed words put together from the record's. -/
theorem recordsSerializeAndParse : Obligations.RecordsSerializeAndParse := by
  refine ⟨fun e t => ?_, fun n t => ⟨parse_w0 n t, ?_⟩⟩
  · obtain ⟨hw0, hursvd⟩ := extract_serialize_common e t
    refine ⟨serialize_lt e t, hw0, hursvd, ?_, ?_⟩
    · rintro rfl
      exact extract_serialize_basic e
    · rintro rfl
      exact extract_serialize_muBar e
  · rw [parse_w1]
    exact extract_append_three _ _ _

/-- Settles O26: each predicate of the layout is a function of the five fields. -/
theorem layoutDependsOnFiveFieldsAlone : Obligations.LayoutDependsOnFiveFieldsAlone := by
  intro fc gc htype hsub hto hfrom horder
  have hdata : isData fc = isData gc := by rw [isData, isData, htype]
  have hshort : isShort fc = isShort gc := by rw [isShort, isShort, htype, hsub]
  have hfour : has4 fc = has4 gc := by rw [has4, has4, hdata, hto, hfrom]
  have hqos : hasQos fc = hasQos gc := by rw [hasQos, hasQos, hdata, getLsbD_seven, getLsbD_seven, hsub]
  have hhtc : hasHtc fc = hasHtc gc := by rw [hasHtc, hasHtc, hqos, horder]
  constructor
  · rw [layout, layout, htype, hshort, hfour, hqos, hhtc]
  · rw [hdrSize, hdrSize, htype, hshort, hfour, hqos, hhtc]

end Sys2Proof.Machine
end

section
/-! SUPPORT. The header commands: what each answers in each of its cases, and which registers and octets the codec depends on (spec 40_header_codec.md R142 to R165). -/

namespace Sys2Proof.Machine

/-! ### A command in each of its three ways to end (R222, R227) -/

theorem exec_of_fatal (i : Instr) {s : State} (h : s.fatal = true) :
    exec i s = .next { s with err := 8, lastOpc := i.opc, resultLen := 0 } := by
  rw [exec_eq, runCommand_of_fatal h]

theorem exec_of_ok (i : Instr) {s s' : State} {n : Nat} (h : s.fatal = false)
    (hb : bodyOf i (s.withLastOpc i.opc) = .ok (s', n)) : exec i s = .next (complete n s') := by
  rw [exec_eq, runCommand_of_ok h hb]

theorem exec_of_error (i : Instr) {s : State} {r : Raise} (h : s.fatal = false)
    (hb : bodyOf i (s.withLastOpc i.opc) = .error r) :
    exec i s = .next (raise r (s.withLastOpc i.opc)) := by
  rw [exec_eq, runCommand_of_error h hb]

/-- No raise has the code OK (R221). -/
theorem Raise.code_ne_zero (r : Raise) : r.code ≠ 0 := by
  cases r <;> simp [Raise.code]

/-! ### Two runs that differ in one piece of state -/

/-- An update of state that no prologue and no outcome reads or writes (R222, R227). -/
structure OutsideStatus (g : State → State) : Prop where
  fatal : ∀ s, (g s).fatal = s.fatal
  withLastOpc : ∀ s opc, (g s).withLastOpc opc = g (s.withLastOpc opc)
  complete : ∀ s n, complete n (g s) = g (complete n s)
  raise : ∀ s r, raise r (g s) = g (raise r s)

theorem outsideStatus_hdr (h : Hdr) : OutsideStatus (fun s => { s with hdr := h }) where
  fatal _ := rfl
  withLastOpc _ _ := rfl
  complete _ _ := rfl
  raise _ r := by cases r <;> rfl

theorem outsideStatus_fbuf (m : Memory) : OutsideStatus (fun s => { s with fbuf := m }) where
  fatal _ := rfl
  withLastOpc _ _ := rfl
  complete _ _ := rfl
  raise _ r := by cases r <;> rfl

/-- A command whose body carries the update along, and raises with it as without it, carries it along as a whole. -/
theorem runCommand_update {g : State → State} (hg : OutsideStatus g) {opc : BitVec 8} {b : Body} {s : State}
    (hb : b (g (s.withLastOpc opc)) = (b (s.withLastOpc opc)).map (Prod.map g id)) :
    runCommand opc b (g s) = g (runCommand opc b s) := by
  rw [← hg.withLastOpc] at hb
  rcases runCommand_cases opc b s with ⟨hf, -⟩ | ⟨s', n, hf, hok, hrun⟩ | ⟨r, hf, herr, hrun⟩
  · have hf' : (g s).fatal = true := by rw [hg.fatal, hf]
    simp only [runCommand, hf, hf', if_true, hg.withLastOpc, hg.raise]
  · have hf' : (g s).fatal = false := by rw [hg.fatal, hf]
    rw [hok] at hb
    rw [hrun, runCommand_of_ok hf' hb, ← hg.complete]
    rfl
  · have hf' : (g s).fatal = false := by rw [hg.fatal, hf]
    rw [herr] at hb
    rw [hrun, runCommand_of_error hf' hb, hg.withLastOpc, hg.raise]

/-! ### Fields and layout (R104, R140) -/

theorem isData_iff {fc : Half} : isData fc = true ↔ fcType fc = 2 := by simp [isData]

theorem present_iff {fc : Half} {f : HdrField} : present fc f = true ↔ ∃ e ∈ layout fc, e.field = f := by
  simp [present]

theorem ne_of_not_present {fc : Half} {f : HdrField} (h : present fc f = false) :
    ∀ e ∈ layout fc, e.field ≠ f := by
  simpa [present] using h

@[simp] theorem Hdr.get_zero (f : HdrField) : Hdr.zero.get f = 0 := by cases f <;> rfl

/-- The layout leaves no gap: every octet of the header belongs to a field (R104). -/
theorem exists_field_of_lt_hdrSize {fc : Half} (h : fcType fc ≠ 3) {k : Nat} (hk : k < hdrSize fc) :
    ∃ f ∈ layout fc, f.off ≤ k ∧ k < f.off + f.width := by
  revert k
  rcases layout_cases h with ⟨f, q, c, hqc, _, hl, hz⟩ | ⟨_, hl, hz⟩ | ⟨_, hl, hz⟩
  · rw [hl, hz]
    revert hqc
    clear * -
    revert f q c
    decide
  · rw [hl, hz]; decide
  · rw [hl, hz]; decide

/-- A size fits RESULT_LEN (R106). -/
theorem toNat_ofNat_hdrSize (fc : Half) : (BitVec.ofNat 13 (hdrSize fc)).toNat = hdrSize fc := by
  have := hdrSize_le fc
  rw [BitVec.toNat_ofNat]
  omega

/-! ### HDR_SIZE and HDR_ENCODE, case by case (R143, R144) -/

theorem hdrSizeBody_of_recognized {s : State} (h : recognized s.cfg s.hdr.fc = true) :
    hdrSizeBody s = .ok (s, hdrSize s.hdr.fc) := by
  simp [hdrSizeBody, h]

theorem hdrSizeBody_of_unrecognized {s : State} (h : recognized s.cfg s.hdr.fc = false) :
    hdrSizeBody s = .error (.fatal .hdrEnum) := by
  simp [hdrSizeBody, h]

theorem hdrEncodeBody_of_unrecognized {s : State} (h : recognized s.cfg s.hdr.fc = false) :
    hdrEncodeBody s = .error (.fatal .hdrEnum) := by
  simp [hdrEncodeBody, h]

theorem hdrEncodeBody_of_bounds {s : State} (h : recognized s.cfg s.hdr.fc = true)
    (hb : s.cfg.bufSize < s.bufOff.toNat + hdrSize s.hdr.fc) : hdrEncodeBody s = .error .bounds := by
  simp [hdrEncodeBody, h, hb]

theorem hdrEncodeBody_of_fits {s : State} (h : recognized s.cfg s.hdr.fc = true)
    (hb : s.bufOff.toNat + hdrSize s.hdr.fc ≤ s.cfg.bufSize) :
    hdrEncodeBody s
      = .ok (s.writeFields s.bufOff.toNat s.hdr (layout s.hdr.fc), hdrSize s.hdr.fc) := by
  simp [hdrEncodeBody, h, Nat.not_lt.2 hb]

/-- The state a successful HDR_ENCODE leaves: the held header written to FBUF at BUF_OFF (R144). -/
def State.encoded (s : State) : State :=
  complete (hdrSize s.hdr.fc)
    ((s.withLastOpc Instr.hdrEncode.opc).writeFields s.bufOff.toNat s.hdr (layout s.hdr.fc))

theorem exec_hdrEncode_of_fits {s : State} (hf : s.fatal = false) (hr : recognized s.cfg s.hdr.fc = true)
    (hb : s.bufOff.toNat + hdrSize s.hdr.fc ≤ s.cfg.bufSize) : exec .hdrEncode s = .next s.encoded :=
  exec_of_ok .hdrEncode hf (hdrEncodeBody_of_fits (s := s.withLastOpc _) hr hb)

/-- HDR_ENCODE writes FBUF and the outcome alone (R144). -/
theorem encoded_eq (s : State) : s.encoded = { s with
    err := 0, lastOpc := 0x02, fbuf := s.encoded.fbuf, resultLen := BitVec.ofNat 13 (hdrSize s.hdr.fc) } := by
  obtain ⟨m, hm⟩ := writeFields_eq (s.withLastOpc Instr.hdrEncode.opc) s.bufOff.toNat s.hdr (layout s.hdr.fc)
  rw [State.encoded, hm]
  rfl

@[simp] theorem encoded_cfg (s : State) : s.encoded.cfg = s.cfg := by rw [encoded_eq]
@[simp] theorem encoded_err (s : State) : s.encoded.err = 0 := by rw [encoded_eq]
@[simp] theorem encoded_fatal (s : State) : s.encoded.fatal = s.fatal := by rw [encoded_eq]
@[simp] theorem encoded_bufOff (s : State) : s.encoded.bufOff = s.bufOff := by rw [encoded_eq]
@[simp] theorem encoded_resultLen (s : State) :
    s.encoded.resultLen = BitVec.ofNat 13 (hdrSize s.hdr.fc) := by rw [encoded_eq]

theorem octet_encoded_inside {s : State} (h : fcType s.hdr.fc ≠ 3) {f : FieldAt} (hf : f ∈ layout s.hdr.fc)
    {k : Nat} (hk : k < f.width) :
    s.encoded.octet (s.bufOff.toNat + f.off + k) = BitVec.ofNat 8 (s.hdr.get f.field / 256 ^ k) := by
  rw [State.encoded, octet_complete, octet_writeFields_inside (layout_apart h) hf hk]

theorem octet_encoded_outside {s : State} (h : fcType s.hdr.fc ≠ 3) {a : Nat}
    (ha : a < s.bufOff.toNat ∨ s.bufOff.toNat + hdrSize s.hdr.fc ≤ a) : s.encoded.octet a = s.octet a := by
  rw [State.encoded, octet_complete, octet_writeFields_outside, octet_withLastOpc]
  intro f hf
  have := layout_bound h f hf
  omega

/-- What the encoder writes does not depend on FBUF's old contents (R151). -/
theorem octet_encoded_congr {s t : State} (h : fcType s.hdr.fc ≠ 3) (ho : t.bufOff = s.bufOff)
    (hh : t.hdr = s.hdr) {k : Nat} (hk : k < hdrSize s.hdr.fc) :
    t.encoded.octet (s.bufOff.toNat + k) = s.encoded.octet (s.bufOff.toNat + k) := by
  obtain ⟨f, hf, hlo, hhi⟩ := exists_field_of_lt_hdrSize h hk
  have hplace : s.bufOff.toNat + k = s.bufOff.toNat + f.off + (k - f.off) := by omega
  have hwidth : k - f.off < f.width := by omega
  rw [hplace, octet_encoded_inside h hf hwidth, ← ho, ← hh]
  rw [← hh] at h hf
  exact octet_encoded_inside h hf hwidth

/-- The loop reads the registers of its own fields alone (R149). -/
theorem writeFields_withHdr (s : State) (o : Nat) {g h : Hdr} (r : Hdr) {fs : List FieldAt}
    (hfs : ∀ f ∈ fs, h.get f.field = g.get f.field) :
    State.writeFields { s with hdr := r } o h fs = { s.writeFields o g fs with hdr := r } := by
  induction fs generalizing s with
  | nil => rfl
  | cons f fs ih =>
    rw [State.writeFields, State.writeFields, hfs f (by simp)]
    exact ih (s.memWrite (o + f.off) f.width (g.get f.field)) (fun e he => hfs e (by simp [he]))

/-- The frame control register is a field of every layout. -/
theorem fc_eq_of_agree {g h : Hdr} (hfs : ∀ f ∈ layout g.fc, h.get f.field = g.get f.field) : h.fc = g.fc :=
  BitVec.eq_of_toNat_eq (hfs _ (fc_mem_layout g.fc))

/-- Headers that agree on the layout encode alike, raise or not (R149). -/
theorem hdrEncodeBody_withHdr {s : State} {h : Hdr}
    (hfs : ∀ f ∈ layout s.hdr.fc, h.get f.field = s.hdr.get f.field) :
    hdrEncodeBody { s with hdr := h }
      = (hdrEncodeBody s).map (Prod.map (fun t => { t with hdr := h }) id) := by
  have hfc : h.fc = s.hdr.fc := fc_eq_of_agree hfs
  cases hr : recognized s.cfg s.hdr.fc with
  | false =>
    rw [hdrEncodeBody_of_unrecognized hr, hdrEncodeBody_of_unrecognized (by simpa only [hfc] using hr)]
    rfl
  | true =>
    rcases Nat.lt_or_ge s.cfg.bufSize (s.bufOff.toNat + hdrSize s.hdr.fc) with hb | hb
    · rw [hdrEncodeBody_of_bounds hr hb,
        hdrEncodeBody_of_bounds (by simpa only [hfc] using hr) (by simpa only [hfc] using hb)]
      rfl
    · rw [hdrEncodeBody_of_fits hr hb,
        hdrEncodeBody_of_fits (by simpa only [hfc] using hr) (by simpa only [hfc] using hb)]
      simp only [hfc, writeFields_withHdr s _ h hfs]
      rfl

/-! ### HDR_DECODE, check by check (R145, R146, R228) -/

/-- The header HDR_DECODE reads at BUF_OFF (R145, R147). -/
def State.wireHdr (s : State) : Hdr := s.readFields s.bufOff.toNat .zero (layout s.wireFc)

theorem hdrDecodeBody_of_bounds {s : State} (h : s.cfg.bufSize < s.bufOff.toNat + s.inLen.toNat) :
    hdrDecodeBody s = .error .bounds := by
  simp [hdrDecodeBody, h]

section
variable {s : State} (hin : s.bufOff.toNat + s.inLen.toNat ≤ s.cfg.bufSize)
include hin

theorem hdrDecodeBody_of_noFc (h : s.inLen.toNat < 2) : hdrDecodeBody s = .error .short := by
  simp [hdrDecodeBody, Nat.not_lt.2 hin, h]

theorem hdrDecodeBody_of_unrecognized (h2 : 2 ≤ s.inLen.toNat) (hr : recognized s.cfg s.wireFc = false) :
    hdrDecodeBody s = .error .unknown := by
  simp [hdrDecodeBody, Nat.not_lt.2 hin, Nat.not_lt.2 h2, hr]

theorem hdrDecodeBody_of_noAddr4 (h2 : 2 ≤ s.inLen.toNat) (hr : recognized s.cfg s.wireFc = true)
    (h4 : has4 s.wireFc = true) (h30 : s.inLen.toNat < 30) : hdrDecodeBody s = .error (.fatal .addr4) := by
  simp [hdrDecodeBody, Nat.not_lt.2 hin, Nat.not_lt.2 h2, hr, h4, h30]

theorem hdrDecodeBody_of_short (h2 : 2 ≤ s.inLen.toNat) (hr : recognized s.cfg s.wireFc = true)
    (h4 : ¬ (has4 s.wireFc = true ∧ s.inLen.toNat < 30)) (h : s.inLen.toNat < hdrSize s.wireFc) :
    hdrDecodeBody s = .error .short := by
  rw [hdrDecodeBody, if_neg (Nat.not_lt.2 hin), if_neg (Nat.not_lt.2 h2), if_neg (by simp [hr]), if_neg h4, if_pos h]

theorem hdrDecodeBody_of_fits (hr : recognized s.cfg s.wireFc = true) (h : hdrSize s.wireFc ≤ s.inLen.toNat) :
    hdrDecodeBody s = .ok ({ s with hdr := s.wireHdr }, hdrSize s.wireFc) := by
  have h10 := le_hdrSize s.wireFc
  have h4 : ¬ (has4 s.wireFc = true ∧ s.inLen.toNat < 30) := by
    rintro ⟨h4, h30⟩
    have := le_hdrSize_of_has4 h4
    omega
  rw [hdrDecodeBody, if_neg (Nat.not_lt.2 hin), if_neg (by omega), if_neg (by simp [hr]), if_neg h4,
    if_neg (Nat.not_lt.2 h)]
  rfl

end

theorem hdrDecodeBody_error {s : State} {r : Raise} (h : hdrDecodeBody s = .error r) :
    r = .bounds ∨ r = .short ∨ r = .unknown ∨ r = .fatal .addr4 := by
  unfold hdrDecodeBody at h
  split_ifs at h <;> cases h <;> simp

@[simp] theorem wireFc_withLastOpc (s : State) (opc : BitVec 8) : (s.withLastOpc opc).wireFc = s.wireFc := by
  simp [State.wireFc]

@[simp] theorem wireHdr_withLastOpc (s : State) (opc : BitVec 8) : (s.withLastOpc opc).wireHdr = s.wireHdr := by
  rw [State.wireHdr, wireFc_withLastOpc]
  exact readFields_congr (fun _ _ _ _ => octet_withLastOpc s opc _)

/-- HDR_DECODE where every check passes: the header registers and the outcome are written, nothing else (R145). -/
theorem exec_hdrDecode_of_fits {s : State} (hf : s.fatal = false)
    (hin : s.bufOff.toNat + s.inLen.toNat ≤ s.cfg.bufSize) (hr : recognized s.cfg s.wireFc = true)
    (hs : hdrSize s.wireFc ≤ s.inLen.toNat) :
    exec .hdrDecode s = .next { s with
      err := 0, lastOpc := 0x03, resultLen := BitVec.ofNat 13 (hdrSize s.wireFc), hdr := s.wireHdr } := by
  have hbody := hdrDecodeBody_of_fits (s := s.withLastOpc Instr.hdrDecode.opc) hin
    (by simpa using hr) (by simpa using hs)
  rw [exec_of_ok .hdrDecode hf hbody, wireFc_withLastOpc, wireHdr_withLastOpc]
  rfl

theorem get_wireHdr_present {s : State} (h : fcType s.wireFc ≠ 3) {f : FieldAt} (hf : f ∈ layout s.wireFc) :
    s.wireHdr.get f.field = s.memRead (s.bufOff.toNat + f.off) f.width :=
  get_readFields_present (layout_apart h) (layout_fits s.wireFc) hf

theorem get_wireHdr_absent {s : State} {f : HdrField} (h : present s.wireFc f = false) : s.wireHdr.get f = 0 := by
  rw [State.wireHdr, get_readFields_absent (ne_of_not_present h), Hdr.get_zero]

/-- HDR_DECODE depends on the octets that lie in the header and in the input, and on no other (R148, R152). -/
theorem hdrDecodeBody_withFbuf {s : State} {m : Memory}
    (hm : ∀ a, s.bufOff.toNat ≤ a → a < s.bufOff.toNat + hdrSize s.wireFc →
      a < s.bufOff.toNat + s.inLen.toNat → State.octet { s with fbuf := m } a = s.octet a) :
    hdrDecodeBody { s with fbuf := m }
      = (hdrDecodeBody s).map (Prod.map (fun t => { t with fbuf := m }) id) := by
  rcases Nat.lt_or_ge s.cfg.bufSize (s.bufOff.toNat + s.inLen.toNat) with hb | hin
  · rw [hdrDecodeBody_of_bounds hb, hdrDecodeBody_of_bounds (s := { s with fbuf := m }) hb]
    rfl
  rcases Nat.lt_or_ge s.inLen.toNat 2 with h2 | h2
  · rw [hdrDecodeBody_of_noFc hin h2, hdrDecodeBody_of_noFc (s := { s with fbuf := m }) hin h2]
    rfl
  have h10 := le_hdrSize s.wireFc
  have hfc : State.wireFc { s with fbuf := m } = s.wireFc :=
    wireFc_congr rfl fun i hi => hm _ (by omega) (by omega) (by omega)
  cases hr : recognized s.cfg s.wireFc with
  | false =>
    rw [hdrDecodeBody_of_unrecognized hin h2 hr,
      hdrDecodeBody_of_unrecognized (s := { s with fbuf := m }) hin h2 (by rwa [hfc])]
    rfl
  | true =>
    by_cases h4 : has4 s.wireFc = true ∧ s.inLen.toNat < 30
    · obtain ⟨h4, h30⟩ := h4
      rw [hdrDecodeBody_of_noAddr4 hin h2 hr h4 h30,
        hdrDecodeBody_of_noAddr4 (s := { s with fbuf := m }) hin h2 (by rwa [hfc])
          (by rwa [hfc]) h30]
      rfl
    rcases Nat.lt_or_ge s.inLen.toNat (hdrSize s.wireFc) with hs | hs
    · rw [hdrDecodeBody_of_short hin h2 hr h4 hs,
        hdrDecodeBody_of_short (s := { s with fbuf := m }) hin h2 (by rwa [hfc])
          (by rwa [hfc]) (by rw [hfc]; exact hs)]
      rfl
    · have hhdr : State.wireHdr { s with fbuf := m } = s.wireHdr := by
        rw [State.wireHdr, State.wireHdr, hfc]
        refine readFields_congr fun f hf i hi => ?_
        have := layout_bound (fcType_ne_of_recognized hr) f hf
        exact hm (s.bufOff.toNat + f.off + i) (by omega) (by omega) (by omega)
      rw [hdrDecodeBody_of_fits hin hr hs,
        hdrDecodeBody_of_fits (s := { s with fbuf := m }) hin (by rwa [hfc]) (by rw [hfc]; exact hs),
        hhdr, hfc]
      rfl

/-- Both runs of HDR_DECODE end alike where the octets it may read agree. -/
theorem exec_hdrDecode_withFbuf {s : State} {m : Memory}
    (hm : ∀ a, s.bufOff.toNat ≤ a → a < s.bufOff.toNat + hdrSize s.wireFc →
      a < s.bufOff.toNat + s.inLen.toNat → State.octet { s with fbuf := m } a = s.octet a) :
    exec .hdrDecode { s with fbuf := m }
      = .next { runCommand Instr.hdrDecode.opc hdrDecodeBody s with fbuf := m } := by
  refine (exec_eq _ _).trans (congrArg _ (runCommand_update (outsideStatus_fbuf m) ?_))
  refine hdrDecodeBody_withFbuf fun a hlo hhi hin => ?_
  rw [octet_withLastOpc, ← hm a hlo (by simpa using hhi) hin]
  exact octet_congr rfl rfl a

/-! ### A header in FBUF (R150) -/

/-- FBUF holds every field of a header at BUF_OFF (R144). -/
def State.HoldsHdr (s : State) (h : Hdr) : Prop :=
  ∀ f ∈ layout h.fc, s.memRead (s.bufOff.toNat + f.off) f.width = h.get f.field

/-- Whether FBUF holds a header depends on FBUF and BUF_OFF alone. -/
theorem State.HoldsHdr.congr {s t : State} {h : Hdr} (hh : s.HoldsHdr h) (hm : t.fbuf = s.fbuf)
    (he : t.fbufEpoch = s.fbufEpoch) (ho : t.bufOff = s.bufOff) : t.HoldsHdr h := by
  intro f hf
  rw [memRead_congr hm he, ho]
  exact hh f hf

theorem holdsHdr_encoded {s : State} (h : fcType s.hdr.fc ≠ 3) : s.encoded.HoldsHdr s.hdr := by
  intro f hf
  rw [encoded_bufOff, State.encoded, memRead_complete,
    memRead_writeFields (layout_apart h) hf, layout_fits s.hdr.fc f hf]
  exact Nat.mod_eq_of_lt (s.hdr.get_lt f.field)

theorem wireFc_of_holdsHdr {s : State} {h : Hdr} (hh : s.HoldsHdr h) : s.wireFc = h.fc := by
  have hfc : s.memRead s.bufOff.toNat 2 = h.fc.toNat := hh _ (fc_mem_layout h.fc)
  rw [State.wireFc, hfc, BitVec.ofNat_toNat, BitVec.setWidth_eq]

/-- Decoding gives the canonical form of the header that FBUF holds (R147, R150). -/
theorem get_wireHdr_of_holdsHdr {s : State} {h : Hdr} (hh : s.HoldsHdr h) (ht : fcType h.fc ≠ 3) (f : HdrField) :
    s.wireHdr.get f = if present h.fc f then h.get f else 0 := by
  have hfc : s.wireFc = h.fc := wireFc_of_holdsHdr hh
  cases hp : present h.fc f with
  | false => exact get_wireHdr_absent (by rw [hfc, hp])
  | true =>
    obtain ⟨e, he, rfl⟩ := present_iff.1 hp
    rw [get_wireHdr_present (by rwa [hfc]) (by rwa [hfc])]
    exact hh e he

/-- Whatever the header registers hold, HDR_DECODE gives the canonical form of the header in FBUF once IN_LEN covers
it (R145, R147, R150). -/
theorem exec_hdrDecode_of_holdsHdr {s : State} {g : Hdr} {n : BitVec 13} (hh : s.HoldsHdr g)
    (hf : s.fatal = false) (hr : recognized s.cfg g.fc = true) (h : Hdr) (hn : hdrSize g.fc ≤ n.toNat)
    (hin : s.bufOff.toNat + n.toNat ≤ s.cfg.bufSize) :
    ∃ u, exec .hdrDecode { s with hdr := h, inLen := n } = .next u ∧ u.err = 0 ∧
      u.resultLen.toNat = hdrSize g.fc ∧ ∀ f, u.hdr.get f = if present g.fc f then g.get f else 0 := by
  have hh' : State.HoldsHdr { s with hdr := h, inLen := n } g := hh.congr rfl rfl rfl
  have hfc := wireFc_of_holdsHdr hh'
  have hrun := exec_hdrDecode_of_fits (s := { s with hdr := h, inLen := n }) hf hin (by rwa [hfc]) (by rwa [hfc])
  refine ⟨_, hrun, rfl, ?_, get_wireHdr_of_holdsHdr hh' (fcType_ne_of_recognized hr)⟩
  rw [← hfc]
  exact toNat_ofNat_hdrSize _

/-- A canonical header is its own canonical form (R150). -/
theorem eq_of_canonical {p : Params} {g h : Hdr} (hc : h.Canonical p)
    (hg : ∀ f, g.get f = if present h.fc f then h.get f else 0) : g = h := by
  refine Hdr.ext_get fun f => ?_
  rw [hg]
  cases hp : present h.fc f with
  | false => exact (hc.2 f hp).symm
  | true => rfl

/-! ### Address roles (R160) -/

/-- The roles of R116, by the bits ToDS and FromDS. -/
theorem resolve_eq (h : Hdr) : resolve h =
    if h.fc.getLsbD 8 = false ∧ h.fc.getLsbD 9 = false then
      { valid := 0b00111, da := h.a1, sa := h.a2, bssid := h.a3, ra := 0, ta := 0 }
    else if h.fc.getLsbD 8 = false then
      { valid := 0b00111, da := h.a1, sa := h.a3, bssid := h.a2, ra := 0, ta := 0 }
    else if h.fc.getLsbD 9 = false then
      { valid := 0b00111, da := h.a3, sa := h.a2, bssid := h.a1, ra := 0, ta := 0 }
    else { valid := 0b11011, da := h.a3, sa := h.a4, bssid := 0, ra := h.a1, ta := h.a2 } := by
  rw [resolve, fcToDs, fcFromDs]
  cases h.fc.getLsbD 8 <;> cases h.fc.getLsbD 9 <;> rfl

theorem addrResolveBody_of_unrecognized {s : State} (h : recognized s.cfg s.hdr.fc = false) :
    addrResolveBody s = .error (.fatal .hdrEnum) := by
  simp [addrResolveBody, h]

theorem addrResolveBody_of_notData {s : State} (h : recognized s.cfg s.hdr.fc = true) (ht : fcType s.hdr.fc ≠ 2) :
    addrResolveBody s = .error .notData := by
  rw [addrResolveBody, if_pos h, if_neg (mt isData_iff.1 ht)]

theorem addrResolveBody_of_data {s : State} (h : recognized s.cfg s.hdr.fc = true) (ht : fcType s.hdr.fc = 2) :
    addrResolveBody s = .ok ({ s with res := resolve s.hdr }, 0) := by
  rw [addrResolveBody, if_pos h, if_pos (isData_iff.2 ht)]

end Sys2Proof.Machine
end

section
/-! SUPPORT. The header codec obligations, settled from the laws of the header commands (spec 40_header_codec.md). -/

namespace Sys2Proof.Machine

/-- Settles O27: the body of NOP completes at once. -/
theorem nopChangesOnlyTheOutcome : Obligations.NopChangesOnlyTheOutcome := by
  intro s
  exact ⟨fun hf => (exec_of_ok .nop hf rfl).trans rfl, fun hf => exec_of_fatal .nop hf⟩

/-- Settles O28, on the two sides of recognition. -/
theorem hdrSizeWritesTheHeaderSize : Obligations.HdrSizeWritesTheHeaderSize := by
  intro s hf
  refine ⟨fun hr => ?_, fun hr => ?_⟩
  · exact (exec_of_ok .hdrSize hf (hdrSizeBody_of_recognized (s := s.withLastOpc _) hr)).trans rfl
  · exact (exec_of_error .hdrSize hf (hdrSizeBody_of_unrecognized (s := s.withLastOpc _) hr)).trans rfl

/-- Settles O29: the fields of a layout are apart and within its size, so each octet written stands. -/
theorem hdrEncodeWritesTheHeader : Obligations.HdrEncodeWritesTheHeader := by
  intro s hf
  refine ⟨fun hr => ?_, fun hr hb => ?_, fun hr hb => ?_⟩
  · exact (exec_of_error .hdrEncode hf (hdrEncodeBody_of_unrecognized (s := s.withLastOpc _) hr)).trans rfl
  · exact (exec_of_error .hdrEncode hf (hdrEncodeBody_of_bounds (s := s.withLastOpc _) hr hb)).trans rfl
  · have ht : fcType s.hdr.fc ≠ 3 := fcType_ne_of_recognized hr
    exact ⟨s.encoded, exec_hdrEncode_of_fits hf hr hb, encoded_eq s,
      fun f hfl k hk => octet_encoded_inside ht hfl hk, fun a ha => octet_encoded_outside ht ha⟩

/-- Settles O30: the two runs take the same branch and write the same octets. -/
theorem hdrEncodeIgnoresAbsentFields : Obligations.HdrEncodeIgnoresAbsentFields := by
  intro s h hfs
  exact ⟨_, exec_eq _ _, (exec_eq _ _).trans
    (congrArg _ (runCommand_update (outsideStatus_hdr h) (hdrEncodeBody_withHdr hfs)))⟩

/-- Settles O31: the header decoded is `State.wireHdr`, field by field. -/
theorem hdrDecodeReadsTheHeader : Obligations.HdrDecodeReadsTheHeader := by
  intro s hf hin hr hs
  have ht : fcType s.wireFc ≠ 3 := fcType_ne_of_recognized hr
  exact ⟨s.wireHdr, exec_hdrDecode_of_fits hf hin hr hs, get_wireHdr_present ht (fc_mem_layout s.wireFc),
    fun f => get_wireHdr_present ht, fun f => get_wireHdr_absent⟩

/-- Settles O33: the check of the fourth address stands before the check of the size. -/
theorem truncatedFourAddressFrameIsFatal : Obligations.TruncatedFourAddressFrameIsFatal := by
  intro s hf hin hr htype hto hfrom h2
  have h4 : has4 s.wireFc = true := by rw [has4_of_data htype, hto, hfrom]; rfl
  rw [← wireFc_withLastOpc s Instr.hdrDecode.opc] at hr h4 ⊢
  refine ⟨fun h30 => ?_, fun h30 hs => ?_⟩
  · have hbody := hdrDecodeBody_of_noAddr4 (s := s.withLastOpc Instr.hdrDecode.opc) hin h2 hr h4 h30
    exact (exec_of_error .hdrDecode hf hbody).trans rfl
  · have hbody := hdrDecodeBody_of_short (s := s.withLastOpc Instr.hdrDecode.opc) hin h2 hr
      (fun h => absurd h.2 (Nat.not_lt.2 h30)) hs
    exact (exec_of_error .hdrDecode hf hbody).trans rfl

/-- Settles O34: a completing HDR_DECODE reports the size of the header, and the header's octets decide everything. -/
theorem hdrDecodeReadsOnlyTheHeader : Obligations.HdrDecodeReadsOnlyTheHeader := by
  intro s m hm
  refine ⟨_, exec_eq _ _, exec_hdrDecode_withFbuf fun a hlo hhi _ => hm a hlo hhi, fun herr => ?_⟩
  rw [bodyOf] at herr ⊢
  rcases runCommand_cases Instr.hdrDecode.opc hdrDecodeBody s with
    ⟨-, hrun⟩ | ⟨t, n, -, hok, hrun⟩ | ⟨r, -, -, hrun⟩
  · rw [hrun] at herr
    exact absurd herr (by decide : (8 : BitVec 4) ≠ 0)
  · obtain ⟨-, -, -, hn, -⟩ := hdrDecodeBody_ok hok
    rw [hrun, complete_resultLen, hn, wireFc_withLastOpc]
  · rw [hrun, raise_err] at herr
    exact absurd herr r.code_ne_zero

/-- Settles O35: the octets of the input decide everything, and the body raises nothing but its four raises. -/
theorem hdrDecodeIsTotalAndConfined : Obligations.HdrDecodeIsTotalAndConfined := by
  intro s m hf hm
  refine ⟨_, exec_eq _ _, exec_hdrDecode_withFbuf fun a hlo _ hhi => hm a hlo hhi, ?_⟩
  rw [bodyOf]
  rcases runCommand_cases Instr.hdrDecode.opc hdrDecodeBody s with
    ⟨hfatal, -⟩ | ⟨t, n, -, -, hrun⟩ | ⟨r, -, herr, hrun⟩
  · exact absurd (hf.symm.trans hfatal) Bool.false_ne_true
  · exact .inl (by rw [hrun, complete_err])
  · rw [hrun, raise_err, raise_fcause]
    rcases hdrDecodeBody_error herr with rfl | rfl | rfl | rfl <;>
      simp [Raise.code, Raise.cause, FatalCause.code]

/-- Settles O36: the roles are those of `resolve`, read off the two bits. -/
theorem addrResolveWritesTheRoles : Obligations.AddrResolveWritesTheRoles := by
  intro s hf
  refine ⟨fun hr ht => ?_, fun hr => ?_, fun hr ht => ?_⟩
  · rw [← resolve_eq]
    exact (exec_of_ok .addrResolve hf (addrResolveBody_of_data (s := s.withLastOpc _) hr ht)).trans rfl
  · exact (exec_of_error .addrResolve hf (addrResolveBody_of_unrecognized (s := s.withLastOpc _) hr)).trans rfl
  · exact (exec_of_error .addrResolve hf (addrResolveBody_of_notData (s := s.withLastOpc _) hr ht)).trans rfl

/-- Settles O37; the frame control 0 is a management value of subtype 0. -/
theorem hdrClearZeroesTheHeader : Obligations.HdrClearZeroesTheHeader := by
  intro s hf
  exact ⟨(exec_of_ok .hdrClear hf rfl).trans rfl, recognized_of_mgmt s.cfg (by decide)⟩

/-- Settles O38: the encoder leaves the header in FBUF, and the decoder gives back the canonical form of the header. -/
theorem headerRoundTrip : Obligations.HeaderRoundTrip := by
  intro s n hf hr hn hin
  have ht : fcType s.hdr.fc ≠ 3 := fcType_ne_of_recognized hr
  refine ⟨s.encoded, exec_hdrEncode_of_fits hf hr (by omega), encoded_err s, ?_, fun h => ?_⟩
  · rw [encoded_resultLen, toNat_ofNat_hdrSize]
  · obtain ⟨u, hrun, herr, hlen, hget⟩ := exec_hdrDecode_of_holdsHdr (holdsHdr_encoded ht) (by simpa using hf)
      (by simpa using hr) h hn (by simpa using hin)
    exact ⟨u, hrun, herr, hlen, hget, fun hc => eq_of_canonical hc hget⟩

/-- Settles O39: every octet of the header belongs to a field, so HDR_ENCODE writes each octet RESULT_LEN counts. -/
theorem hdrSizeAgreesWithHdrEncode : Obligations.HdrSizeAgreesWithHdrEncode := by
  intro s hf hr hb
  have ht : fcType s.hdr.fc ≠ 3 := fcType_ne_of_recognized hr
  refine ⟨_, s.encoded, exec_of_ok .hdrSize hf (hdrSizeBody_of_recognized (s := s.withLastOpc _) hr),
    exec_hdrEncode_of_fits hf hr hb, encoded_err s, (encoded_resultLen s).symm, ?_⟩
  rw [encoded_resultLen, toNat_ofNat_hdrSize]
  refine ⟨fun a => octet_encoded_outside ht, fun m => ⟨State.encoded { s with fbuf := m },
    exec_hdrEncode_of_fits hf hr hb, fun k hk => ?_⟩⟩
  exact octet_encoded_congr (t := { s with fbuf := m }) ht rfl rfl hk

end Sys2Proof.Machine
end

section
/-! SUPPORT. The UserInfo table commands and the Trigger codec: what each answers in each of its cases, and the Trigger body as FBUF holds it (spec 41_trigger_codec.md R181 to R206). -/

namespace Sys2Proof.Machine

/-! ### A command that completed (R222) -/

/-- ERR is OK only after a command whose body completed. -/
theorem exec_err_zero {i : Instr} {s t : State} (h : exec i s = .next t) (herr : t.err = 0) :
    s.fatal = false ∧ ∃ s' n, bodyOf i (s.withLastOpc i.opc) = .ok (s', n) ∧ t = complete n s' := by
  rw [exec_eq] at h
  cases h
  rcases runCommand_cases i.opc (bodyOf i) s with ⟨-, hrun⟩ | ⟨s', n, hf, hok, hrun⟩ | ⟨r, -, -, hrun⟩
  · rw [hrun] at herr
    exact absurd herr (by decide : (8 : BitVec 4) ≠ 0)
  · exact ⟨hf, s', n, hok, hrun⟩
  · rw [hrun, raise_err] at herr
    exact absurd herr r.code_ne_zero

/-! ### The table and its order (R181, R182) -/

/-- No AID stands twice in the serialization order of a legal table (R40, R181). -/
theorem nodup_aids_serial {s : State} (h : s.TableOk) : (s.serial.map UiEntry.aid).Nodup :=
  (((serialList_perm _ _).map UiEntry.aid).nodup_iff).2 h.1

/-- Where no AID stands twice, the sorted order is strict (R181). -/
theorem serial_aidAsc_strict {s : State} (h : s.TableOk) (ho : s.cfg.uiOrder = .aidAsc) :
    s.serial.Pairwise (fun a b => a.aid.toNat < b.aid.toNat) := by
  have hle : s.serial.Pairwise (fun a b => a.aid.toNat ≤ b.aid.toNat) := by
    rw [State.serial, ho]
    exact serialList_aidAsc_pairwise s.ui
  have hne : s.serial.Pairwise (fun a b => a.aid ≠ b.aid) := List.pairwise_map.1 (nodup_aids_serial h)
  exact hle.imp₂ (fun _ _ hab hn => lt_of_le_of_ne hab fun he => hn (BitVec.eq_of_toNat_eq he)) hne

/-- Where no AID stands twice, the entry with an AID is the one that a search finds. -/
theorem find?_aid_of_mem {l : List UiEntry} (h : (l.map UiEntry.aid).Nodup) {e : UiEntry} (he : e ∈ l) :
    l.find? (fun x => x.aid == e.aid) = some e := by
  cases hf : l.find? (fun x => x.aid == e.aid) with
  | none => exact absurd (List.find?_eq_none.1 hf e he) (by simp)
  | some x =>
    have hx : x.aid = e.aid := by simpa using List.find?_some hf
    exact congrArg some (List.inj_on_of_nodup_map h (List.mem_of_find?_eq_some hf) he hx)

/-- FindAID of an entry of a legal table answers its place (R182). -/
theorem findAid_ui_split {s : State} {l r : List UiEntry} {e : UiEntry} (ht : s.TableOk)
    (hs : s.ui = l ++ e :: r) : findAid s.ui e.aid = some l.length := by
  rw [hs]
  exact findAid_split_of_nodup (hs ▸ ht.1) rfl

/-! ### The table commands, case by case (R184 to R192) -/

theorem uiInsertBody_of_split {s : State} {l r : List UiEntry} {e : UiEntry} (ht : s.TableOk)
    (hs : s.ui = l ++ e :: r) (he : e.aid = s.staged.aid) :
    uiInsertBody s = .ok ({ s with ui := l ++ s.staged :: r }, 0) := by
  have hset : s.ui.set l.length s.staged = l ++ s.staged :: r := by simp [hs]
  rw [uiInsertBody, ← he, findAid_ui_split ht hs]
  simp only [hset]

theorem uiInsertBody_of_absent {s : State} (h : ∀ x ∈ s.ui, x.aid ≠ s.staged.aid)
    (hn : s.ui.length ≠ s.cfg.uiCap) : uiInsertBody s = .ok ({ s with ui := s.ui ++ [s.staged] }, 0) := by
  simp [uiInsertBody, findAid_none.2 h, State.uiCount, hn]

theorem uiInsertBody_of_full {s : State} (h : ∀ x ∈ s.ui, x.aid ≠ s.staged.aid)
    (hn : s.ui.length = s.cfg.uiCap) : uiInsertBody s = .error .capacity := by
  simp [uiInsertBody, findAid_none.2 h, State.uiCount, hn]

theorem uiRemoveBody_of_split {s : State} {l r : List UiEntry} {e : UiEntry} (ht : s.TableOk)
    (hs : s.ui = l ++ e :: r) : uiRemoveBody e.aid s = .ok ({ s with ui := l ++ r }, 0) := by
  have herase : s.ui.eraseIdx l.length = l ++ r := by simp [hs, List.eraseIdx_append_of_length_le]
  rw [uiRemoveBody, findAid_ui_split ht hs]
  simp only [herase]

theorem uiRemoveBody_of_absent {s : State} {aid : BitVec 12} (h : ∀ x ∈ s.ui, x.aid ≠ aid) :
    uiRemoveBody aid s = .error .notFound := by
  simp [uiRemoveBody, findAid_none.2 h]

theorem uiLookupBody_of_mem {s : State} {e : UiEntry} (ht : s.TableOk) (he : e ∈ s.ui) :
    uiLookupBody e.aid s = .ok (s.stage e (s.serialPos e), 0) := by
  simp [uiLookupBody, find?_aid_of_mem ht.1 he]

theorem uiLookupBody_of_absent {s : State} {aid : BitVec 12} (h : ∀ x ∈ s.ui, x.aid ≠ aid) :
    uiLookupBody aid s = .error .notFound := by
  have hfind : s.ui.find? (fun e => e.aid == aid) = none := List.find?_eq_none.2 (by simpa using h)
  simp [uiLookupBody, hfind]

theorem uiReadBody_of_some {s : State} {k : BitVec 16} {e : UiEntry} (h : s.serial[k.toNat]? = some e) :
    uiReadBody k s = .ok (s.stage e k.toNat, 0) := by
  simp [uiReadBody, h]

theorem uiReadBody_of_le {s : State} {k : BitVec 16} (h : s.ui.length ≤ k.toNat) :
    uiReadBody k s = .error .notFound := by
  have hnone : s.serial[k.toNat]? = none := List.getElem?_eq_none (by simpa using h)
  simp [uiReadBody, hnone]

/-! ### Variants and sizes (R121 to R123) -/

/-- The four selectors of R122 with the record sizes of R123. -/
theorem exists_ofSelector {c : BitVec 4} {r : Nat}
    (h : c = 0 ∧ r = 6 ∨ c = 2 ∧ r = 7 ∨ c = 3 ∧ r = 5 ∨ c = 4 ∧ r = 5) :
    ∃ ty, TrgType.ofSelector c = some ty ∧ recSize ty = r := by
  rcases h with ⟨rfl, rfl⟩ | ⟨rfl, rfl⟩ | ⟨rfl, rfl⟩ | ⟨rfl, rfl⟩
  · exact ⟨.basic, rfl, rfl⟩
  · exact ⟨.muBar, rfl, rfl⟩
  · exact ⟨.muRts, rfl, rfl⟩
  · exact ⟨.bsrp, rfl, rfl⟩

theorem ofSelector_eq_none {c : BitVec 4} (h0 : c ≠ 0) (h2 : c ≠ 2) (h3 : c ≠ 3) (h4 : c ≠ 4) :
    TrgType.ofSelector c = none := by
  rw [TrgType.ofSelector, if_neg h0, if_neg h2, if_neg h3, if_neg h4]

/-- The largest Trigger body (R202). -/
theorem trgSizeOf_le (ty : TrgType) {n : Nat} (h : n ≤ 255) : trgSizeOf ty n ≤ 1794 := by
  have := Nat.mul_le_mul h (recSize_le ty)
  rw [trgSizeOf]
  omega

/-! ### TRG_SIZE and TRG_ENCODE, case by case (R195, R197) -/

theorem trgSizeBody_of_type {s : State} {ty : TrgType} (h : s.trgType? = some ty) :
    trgSizeBody s = .ok (s, trgSizeOf ty s.ui.length) := by
  simp [trgSizeBody, h, State.uiCount]

theorem trgSizeBody_of_noType {s : State} (h : s.trgType? = none) : trgSizeBody s = .error (.fatal .trgEnum) := by
  simp [trgSizeBody, h]

theorem exec_trgSize_of_type {s : State} {ty : TrgType} (hf : s.fatal = false) (h : s.trgType? = some ty) :
    exec .trgSize s = .next { s with
      err := 0, lastOpc := 0x18, resultLen := BitVec.ofNat 13 (trgSizeOf ty s.ui.length) } :=
  (exec_of_ok .trgSize hf (trgSizeBody_of_type (s := s.withLastOpc _) h)).trans rfl

theorem trgEncodeBody_of_noType {s : State} (h : s.trgType? = none) :
    trgEncodeBody s = .error (.fatal .trgEnum) := by
  simp [trgEncodeBody, h]

theorem trgEncodeBody_of_bounds {s : State} {ty : TrgType} (h : s.trgType? = some ty)
    (hb : s.cfg.bufSize < s.bufOff.toNat + trgSizeOf ty s.ui.length) : trgEncodeBody s = .error .bounds := by
  simp [trgEncodeBody, h, State.uiCount, hb]

theorem trgEncodeBody_of_fits {s : State} {ty : TrgType} (h : s.trgType? = some ty)
    (hb : s.bufOff.toNat + trgSizeOf ty s.ui.length ≤ s.cfg.bufSize) :
    trgEncodeBody s = .ok (s.writeOctets s.bufOff.toNat (s.trgBody ty), trgSizeOf ty s.ui.length) := by
  simp [trgEncodeBody, h, State.uiCount, Nat.not_lt.2 hb]

/-- The state a successful TRG_ENCODE leaves: the Trigger body of R196 written to FBUF at BUF_OFF (R197). -/
def State.trgEncoded (s : State) (ty : TrgType) : State :=
  { s with
    err := 0, lastOpc := 0x19, fbuf := Memory.writeOctets s.fbuf s.bufOff.toNat (s.trgBody ty)
    resultLen := BitVec.ofNat 13 (trgSizeOf ty s.ui.length) }

@[simp] theorem trgEncoded_resultLen (s : State) (ty : TrgType) :
    (s.trgEncoded ty).resultLen = BitVec.ofNat 13 (trgSizeOf ty s.ui.length) := rfl

theorem exec_trgEncode_of_fits {s : State} {ty : TrgType} (hf : s.fatal = false) (h : s.trgType? = some ty)
    (hb : s.bufOff.toNat + trgSizeOf ty s.ui.length ≤ s.cfg.bufSize) :
    exec .trgEncode s = .next (s.trgEncoded ty) :=
  (exec_of_ok .trgEncode hf (trgEncodeBody_of_fits (s := s.withLastOpc _) h hb)).trans rfl

/-- A TRG_ENCODE that ends with ERR OK has written the body of a recognized variant (R197). -/
theorem exec_trgEncode_err_zero {s t : State} (h : exec .trgEncode s = .next t) (herr : t.err = 0) :
    ∃ ty, s.trgType? = some ty ∧ t = s.trgEncoded ty := by
  obtain ⟨-, s', n, hok, rfl⟩ := exec_err_zero h herr
  obtain ⟨ty, hty, rfl, -, rfl⟩ := trgEncodeBody_ok hok
  exact ⟨ty, hty, rfl⟩

theorem octet_trgEncoded (s : State) (ty : TrgType) (a : Nat) :
    (s.trgEncoded ty).octet a = (s.writeOctets s.bufOff.toNat (s.trgBody ty)).octet a :=
  octet_congr rfl rfl a

/-! ### TRG_DECODE where every check passes (R200) -/

theorem trgDecodeBody_of_fits {s : State} {ty : TrgType} (hin : s.bufOff.toNat + s.inLen.toNat ≤ s.cfg.bufSize)
    (hty : TrgType.ofSelector (ciSelector s.wireCi) = some ty) (hs : trgSizeOf ty s.wireUsers ≤ s.inLen.toNat)
    (hcap : s.wireUsers ≤ s.cfg.uiCap) (hnodup : ((s.wireRecords ty s.wireUsers).map UiEntry.aid).Nodup) :
    trgDecodeBody s = .ok ({ s with trgCi := s.wireCi, ui := s.wireRecords ty s.wireUsers },
      trgSizeOf ty s.wireUsers) := by
  have h9 : 9 ≤ s.inLen.toNat := le_trans (Nat.le_add_right 9 _) hs
  rw [trgDecodeBody, if_neg (Nat.not_lt.2 hin), if_neg (Nat.not_lt.2 h9), hty]
  simp only [if_neg (Nat.not_lt.2 hs), if_neg (Nat.not_lt.2 hcap), if_pos hnodup]

theorem exec_trgDecode_of_fits {s : State} {ty : TrgType} (hf : s.fatal = false)
    (hin : s.bufOff.toNat + s.inLen.toNat ≤ s.cfg.bufSize)
    (hty : TrgType.ofSelector (ciSelector s.wireCi) = some ty) (hs : trgSizeOf ty s.wireUsers ≤ s.inLen.toNat)
    (hcap : s.wireUsers ≤ s.cfg.uiCap) (hnodup : ((s.wireRecords ty s.wireUsers).map UiEntry.aid).Nodup) :
    exec .trgDecode s = .next { s with
      err := 0, lastOpc := 0x1A, resultLen := BitVec.ofNat 13 (trgSizeOf ty s.wireUsers)
      trgCi := s.wireCi, ui := s.wireRecords ty s.wireUsers } := by
  have hbody := trgDecodeBody_of_fits (s := s.withLastOpc Instr.trgDecode.opc) (ty := ty) hin
    (by simpa using hty) (by simpa using hs) (by simpa using hcap) (by simpa using hnodup)
  rw [exec_of_ok .trgDecode hf hbody, wireCi_withLastOpc, wireUsers_withLastOpc, wireRecords_withLastOpc]
  rfl

/-- A TRG_DECODE that ends with ERR OK holds the declared number of entries, no AID twice (R200). -/
theorem exec_trgDecode_err_zero {s t : State} (h : exec .trgDecode s = .next t) (herr : t.err = 0) :
    t.ui.length = s.wireUsers ∧ (t.ui.map UiEntry.aid).Nodup := by
  obtain ⟨-, s', n, hok, rfl⟩ := exec_err_zero h herr
  obtain ⟨ty, -, -, -, -, -, -, hnodup, rfl⟩ := trgDecodeBody_ok hok
  exact ⟨by simp, hnodup⟩

/-- UI_COUNT reads the length of a table that an 8-bit count can hold (R39). -/
theorem readReg_uiCount {s : State} (h : s.ui.length ≤ 255) :
    s.readReg .uiCount = BitVec.ofNat 32 s.ui.length := by
  apply BitVec.eq_of_toNat_eq
  simp only [State.readReg, State.uiCount, BitVec.toNat_setWidth, BitVec.toNat_ofNat]
  omega

theorem wireUsers_eq_octet (s : State) : s.wireUsers = (s.octet (s.bufOff.toNat + 8)).toNat :=
  memRead_one s _

/-! ### A Trigger body in FBUF (R196, R204) -/

/-- The AID stands in W0, which every record carries whole (R127, R129). -/
theorem aid_parse_serialize (e : UiEntry) (ty : TrgType) : (parse (serialize e ty) ty).aid = e.aid := by
  rw [UiEntry.aid, parse_w0, (extract_serialize_common e ty).1, UiEntry.aid]

/-- FBUF holds, at BUF_OFF, the Trigger body of a common information and a list of entries (R121, R196). -/
structure State.HoldsTrg (s : State) (ty : TrgType) (ci : CommonInfo) (l : List UiEntry) : Prop where
  ci : s.memRead s.bufOff.toNat 8 = ci.toNat
  users : s.octet (s.bufOff.toNat + 8) = BitVec.ofNat 8 l.length
  records : ∀ k e, l[k]? = some e →
    s.memRead (s.bufOff.toNat + 9 + k * recSize ty) (recSize ty) = serialize e ty

/-- Whether FBUF holds a body depends on FBUF and BUF_OFF alone. -/
theorem State.HoldsTrg.congr {s t : State} {ty : TrgType} {ci : CommonInfo} {l : List UiEntry}
    (h : s.HoldsTrg ty ci l) (hm : t.fbuf = s.fbuf) (he : t.fbufEpoch = s.fbufEpoch) (ho : t.bufOff = s.bufOff) :
    t.HoldsTrg ty ci l where
  ci := by rw [memRead_congr hm he, ho, h.ci]
  users := by rw [octet_congr hm he, ho, h.users]
  records k e hk := by rw [memRead_congr hm he, ho, h.records k e hk]

theorem holdsTrg_trgEncoded (s : State) (ty : TrgType) : (s.trgEncoded ty).HoldsTrg ty s.trgCi s.serial := by
  obtain ⟨hci, husers, hrecords, -⟩ := reads_of_trgBody (octet_trgEncoded s ty)
  exact ⟨hci, by rw [length_serial]; exact husers, hrecords⟩

section
variable {s : State} {ty : TrgType} {ci : CommonInfo} {l : List UiEntry} (h : s.HoldsTrg ty ci l)
include h

theorem wireCi_of_holdsTrg : s.wireCi = ci := by
  rw [State.wireCi, h.ci, BitVec.ofNat_toNat, BitVec.setWidth_eq]

theorem wireUsers_of_holdsTrg (hl : l.length ≤ 255) : s.wireUsers = l.length := by
  rw [wireUsers_eq_octet, h.users, BitVec.toNat_ofNat]
  omega

/-- The list that TRG_DECODE reads is the encoded list, less what the variant does not carry (R204). -/
theorem wireRecords_of_holdsTrg : s.wireRecords ty l.length = l.map (fun e => parse (serialize e ty) ty) := by
  refine List.ext_getElem? fun k => ?_
  rcases Nat.lt_or_ge k l.length with hk | hk
  · rw [getElem?_wireRecords s ty hk, h.records k l[k] (List.getElem?_eq_getElem hk), List.getElem?_map,
      List.getElem?_eq_getElem hk]
    rfl
  · rw [List.getElem?_eq_none (by simpa using hk), List.getElem?_eq_none (by simpa using hk)]

/-- Whatever CI and the table hold, TRG_DECODE gives back the body in FBUF once IN_LEN covers it (R200, R204). -/
theorem exec_trgDecode_of_holdsTrg (hf : s.fatal = false) (hty : TrgType.ofSelector (ciSelector ci) = some ty)
    (hl : l.length ≤ 255) (hcap : l.length ≤ s.cfg.uiCap) (hnodup : (l.map UiEntry.aid).Nodup)
    (hs : trgSizeOf ty l.length ≤ s.inLen.toNat) (hin : s.bufOff.toNat + s.inLen.toNat ≤ s.cfg.bufSize) :
    exec .trgDecode s = .next { s with
      err := 0, lastOpc := 0x1A, resultLen := BitVec.ofNat 13 (trgSizeOf ty l.length)
      trgCi := ci, ui := l.map (fun e => parse (serialize e ty) ty) } := by
  have hci := wireCi_of_holdsTrg h
  have husers := wireUsers_of_holdsTrg h hl
  have hrecords := wireRecords_of_holdsTrg h
  have haids : (l.map (fun e => parse (serialize e ty) ty)).map UiEntry.aid = l.map UiEntry.aid := by
    simp [aid_parse_serialize]
  have hrun := exec_trgDecode_of_fits (ty := ty) hf hin (by rwa [hci]) (by rwa [husers]) (by rwa [husers])
    (by rwa [husers, hrecords, haids])
  rwa [hci, husers, hrecords] at hrun

end

end Sys2Proof.Machine
end

section
/-! SUPPORT. The UserInfo table and Trigger codec obligations, settled from their laws (spec 41_trigger_codec.md). -/

namespace Sys2Proof.Machine

/-- Settles O40: a sort is a permutation, and distinct AIDs make it strict. -/
theorem serializationOrder : Obligations.SerializationOrder := by
  intro s ht
  refine ⟨serialList_perm _ _, fun ho => ?_, serial_aidAsc_strict ht⟩
  rw [State.serial, ho]
  rfl

/-- Settles O41: the body of UI_CLEAR completes at once. -/
theorem uiClearEmptiesTheTable : Obligations.UiClearEmptiesTheTable := by
  intro s hf
  exact (exec_of_ok .uiClear hf rfl).trans rfl

/-- Settles O42: FindAID finds the place of the entry with the staged AID, or none. -/
theorem uiInsertReplacesOrAppends : Obligations.UiInsertReplacesOrAppends := by
  intro s hf ht
  refine ⟨fun l r e hs he => ?_, fun hx hn => ?_, fun hx hn => ?_⟩
  · exact (exec_of_ok .uiInsert hf (uiInsertBody_of_split (s := s.withLastOpc _) ht hs he)).trans rfl
  · exact (exec_of_ok .uiInsert hf (uiInsertBody_of_absent (s := s.withLastOpc _) hx hn)).trans rfl
  · exact (exec_of_error .uiInsert hf (uiInsertBody_of_full (s := s.withLastOpc _) hx hn)).trans rfl

/-- Settles O44: FindAID finds the place of the entry with the AID, or none. -/
theorem uiRemoveCompactsTheTable : Obligations.UiRemoveCompactsTheTable := by
  intro s aid hf ht
  refine ⟨?_, fun hx => ?_⟩
  · rintro l r e hs rfl
    exact (exec_of_ok (.uiRemove e.aid) hf (uiRemoveBody_of_split (s := s.withLastOpc _) ht hs)).trans rfl
  · exact (exec_of_error (.uiRemove aid) hf (uiRemoveBody_of_absent (s := s.withLastOpc _) hx)).trans rfl

/-- Settles O46: with distinct AIDs the search finds the entry, and its position in the order is `serialPos`. -/
theorem uiLookupStagesTheEntry : Obligations.UiLookupStagesTheEntry := by
  intro s aid hf ht
  refine ⟨?_, fun hx => ?_⟩
  · rintro e he rfl
    exact ⟨s.serialPos e, getElem?_serialPos ht he,
      (exec_of_ok (.uiLookup e.aid) hf (uiLookupBody_of_mem (s := s.withLastOpc _) ht he)).trans rfl⟩
  · exact (exec_of_error (.uiLookup aid) hf (uiLookupBody_of_absent (s := s.withLastOpc _) hx)).trans rfl

/-- Settles O47: the serialization order has as many positions as the table has entries. -/
theorem uiReadStagesTheEntryAtAPosition : Obligations.UiReadStagesTheEntryAtAPosition := by
  intro s k hf
  refine ⟨fun e he => ?_, fun hk => ?_, fun hk => ?_⟩
  · exact (exec_of_ok (.uiRead k) hf (uiReadBody_of_some (s := s.withLastOpc _) he)).trans rfl
  · exact ⟨_, List.getElem?_eq_getElem (by rwa [length_serial])⟩
  · exact (exec_of_error (.uiRead k) hf (uiReadBody_of_le (s := s.withLastOpc _) hk)).trans rfl

/-- Settles O50: the selectors of R122 one by one. -/
theorem trgSizeWritesTheBodySize : Obligations.TrgSizeWritesTheBodySize := by
  intro s hf
  refine ⟨fun r hr => ?_, fun h0 h2 h3 h4 => ?_⟩
  · obtain ⟨ty, hty, rfl⟩ := exists_ofSelector hr
    exact ⟨exec_trgSize_of_type hf hty, trgSizeOf_le ty⟩
  · have hty : s.trgType? = none := ofSelector_eq_none h0 h2 h3 h4
    exact (exec_of_error .trgSize hf (trgSizeBody_of_noType (s := s.withLastOpc _) hty)).trans rfl

/-- Settles O51: FBUF is the old one with the octets of the body written over it. -/
theorem trgEncodeWritesTheBody : Obligations.TrgEncodeWritesTheBody := by
  intro s hf
  refine ⟨fun hty => ?_, fun ty hty hb => ?_, fun ty hty hb => ?_⟩
  · exact (exec_of_error .trgEncode hf (trgEncodeBody_of_noType (s := s.withLastOpc _) hty)).trans rfl
  · exact (exec_of_error .trgEncode hf (trgEncodeBody_of_bounds (s := s.withLastOpc _) hty hb)).trans rfl
  · exact ⟨s.trgEncoded ty, exec_trgEncode_of_fits hf hty hb, rfl, reads_of_trgBody (octet_trgEncoded s ty)⟩

/-- Settles O55: the body holds the serialization order, and the decoder reads as many records as are declared. -/
theorem numUsersEqualsTheListCardinality : Obligations.NumUsersEqualsTheListCardinality := by
  rintro s t ⟨⟨-, ⟨-, hcap⟩, -⟩, -, ⟨-, hcount⟩, -⟩
  have hlen : s.ui.length ≤ 255 := le_trans hcount hcap
  refine ⟨fun hrun herr => ?_, fun hrun herr => ?_⟩
  · obtain ⟨ty, hty, rfl⟩ := exec_trgEncode_err_zero hrun herr
    have hbody := holdsTrg_trgEncoded s ty
    have hsize := trgSizeOf_le ty hlen
    refine ⟨?_, readReg_uiCount hlen, ty, hty, ?_, fun k hk => ?_⟩
    · exact (wireUsers_eq_octet _).symm.trans
        ((wireUsers_of_holdsTrg hbody (by simpa using hlen)).trans (length_serial s))
    · rw [trgEncoded_resultLen, BitVec.toNat_ofNat]
      exact Nat.mod_eq_of_lt (by omega)
    · have hk' : k < s.serial.length := (length_serial s).symm ▸ hk
      exact ⟨s.serial[k], mem_serial.1 (List.getElem_mem hk'),
        hbody.records k _ (List.getElem?_eq_getElem hk')⟩
  · obtain ⟨husers, hnodup⟩ := exec_trgDecode_err_zero hrun herr
    rw [wireUsers_eq_octet] at husers
    have hcount : t.ui.length ≤ 255 := husers ▸ Nat.le_of_lt_succ (BitVec.isLt _)
    exact ⟨husers, hnodup, husers ▸ readReg_uiCount hcount⟩

/-- Settles O56: the encoder leaves the body of CI and the serialization order in FBUF, and the decoder reads it back. -/
theorem triggerRoundTrip : Obligations.TriggerRoundTrip := by
  rintro s ty n hf ⟨-, ⟨-, hcap⟩, -⟩ ht hty hs hin
  refine ⟨s.trgEncoded ty, exec_trgEncode_of_fits hf hty (by omega), rfl, fun ci l => ?_⟩
  have hbody : State.HoldsTrg { s.trgEncoded ty with trgCi := ci, ui := l, inLen := n } ty s.trgCi s.serial :=
    (holdsTrg_trgEncoded s ty).congr rfl rfl rfl
  have hlen : s.serial.length ≤ s.cfg.uiCap := by rw [length_serial]; exact ht.2
  refine ⟨_, exec_trgDecode_of_holdsTrg hbody hf hty (le_trans hlen hcap) hlen (nodup_aids_serial ht)
    (by rwa [length_serial]) hin, rfl, rfl, by simp, rfl, (serialList_perm _ _).map _⟩

/-- Settles O58: both commands report the size of the body of the held table. -/
theorem trgSizeAgreesWithTrgEncode : Obligations.TrgSizeAgreesWithTrgEncode := by
  intro s t hf hrun herr
  obtain ⟨ty, hty, rfl⟩ := exec_trgEncode_err_zero hrun herr
  exact ⟨_, exec_trgSize_of_type hf hty, rfl, rfl⟩

end Sys2Proof.Machine
end

section
/-! SUPPORT. Which words the decoder takes, and what it makes of them (spec 30_encoding.md R90, R91, R134). -/

namespace Sys2Proof

/-! ### The operand checks of R91 -/

theorem noArg_ok {i j : Instr} {arg : BitVec 16} (h : noArg i arg = .ok j) : i = j ∧ arg = 0#16 := by
  unfold noArg at h
  split at h <;> simp_all

/-- ARG[15:12] is 0 exactly for the values of an AID. -/
theorem extract_aidReserved_eq_zero (arg : BitVec 16) : arg.extractLsb' 12 4 = 0#4 ↔ arg.toNat < 0x1000 := by
  rw [BitVec.toNat_eq, BitVec.extractLsb'_toNat, Nat.shiftRight_eq_div_pow, BitVec.toNat_ofNat]
  omega

theorem aidArg_ok {f : BitVec 12 → Instr} {j : Instr} {arg : BitVec 16} (h : aidArg f arg = .ok j) :
    ∃ a : BitVec 12, f a = j ∧ arg = a.setWidth 16 := by
  unfold aidArg at h
  split at h
  · rename_i hz
    have hlt := (extract_aidReserved_eq_zero arg).1 hz
    refine ⟨arg.extractLsb' 0 12, by simpa using h, BitVec.eq_of_toNat_eq ?_⟩
    rw [BitVec.toNat_setWidth, BitVec.extractLsb'_toNat, Nat.shiftRight_zero]
    omega
  · simp at h

theorem exists_noArg_ok (i : Instr) (arg : BitVec 16) : (∃ j, noArg i arg = .ok j) ↔ arg.toNat = 0 := by
  have hz : arg.toNat = 0 ↔ arg = 0#16 := (BitVec.toNat_eq (y := 0#16)).symm
  rw [hz]
  by_cases h : arg = 0#16 <;> simp [noArg, h]

theorem exists_aidArg_ok (f : BitVec 12 → Instr) (arg : BitVec 16) :
    (∃ j, aidArg f arg = .ok j) ↔ arg.toNat < 0x1000 := by
  rw [← extract_aidReserved_eq_zero]
  by_cases h : arg.extractLsb' 12 4 = 0#4 <;> simp [aidArg, h]

/-! ### The opcode map of R91 -/

/-- The decoder reads an opcode and an operand as the command that has them. -/
theorem decodeOpc_ok {n : Nat} {arg : BitVec 16} {i : Instr} (h : decodeOpc n arg = .ok i) :
    n = i.opc.toNat ∧ arg = i.arg := by
  unfold decodeOpc at h
  split at h
  -- the rows whose ARG is not 0 (UI_REMOVE, UI_LOOKUP, UI_READ), and the unassigned opcodes
  case h_9 => obtain ⟨a, rfl, rfl⟩ := aidArg_ok h; exact ⟨rfl, rfl⟩
  case h_10 => obtain ⟨a, rfl, rfl⟩ := aidArg_ok h; exact ⟨rfl, rfl⟩
  case h_11 => cases h; exact ⟨rfl, rfl⟩
  case h_15 => cases h
  all_goals obtain ⟨rfl, rfl⟩ := noArg_ok h; exact ⟨rfl, rfl⟩

/-- The opcode map and the table of R91 accept the same opcodes with the same operands. -/
theorem exists_decodeOpc_ok (n : Nat) (arg : BitVec 16) :
    (∃ i, decodeOpc n arg = .ok i) ↔ opcAssigned n = true ∧ argLegal n arg.toNat = true := by
  unfold decodeOpc
  split
  -- the unassigned opcodes, then the fourteen rows
  case h_15 =>
    have hopc : opcAssigned n = false := by
      simp only [imp_false] at *
      simp only [opcAssigned, Bool.or_eq_false_iff, Bool.and_eq_false_iff, decide_eq_false_iff_not]
      omega
    simp [hopc]
  all_goals simp [exists_noArg_ok, exists_aidArg_ok, opcAssigned, argLegal]

/-! ### The word -/

theorem cmdRsv_eq_zero (w : Word) : cmdRsv w = 0#8 ↔ w.toNat / 0x100 % 0x100 = 0 := by
  rw [← toNat_cmdRsv]
  exact BitVec.toNat_eq

/-- A word whose RSV is 0 is its ARG and its OPC (R90). -/
theorem commandWord_fields {w : Word} (h : cmdRsv w = 0#8) : commandWord (cmdOpc w) (cmdArg w) = w := by
  have hrsv := (cmdRsv_eq_zero w).1 h
  apply BitVec.eq_of_toNat_eq
  rw [toNat_commandWord, toNat_cmdOpc, toNat_cmdArg]
  omega

/-- A decoded word is the encoding of its command (R90, R91). -/
theorem encode_of_decode {w : Word} {i : Instr} (h : decode w = .ok i) : encode i = w := by
  unfold decode at h
  split at h
  · rename_i hrsv
    obtain ⟨hopc, harg⟩ := decodeOpc_ok h
    rw [encode, ← BitVec.eq_of_toNat_eq hopc, ← harg, commandWord_fields hrsv]
  · cases h

theorem opc_of_decode {w : Word} {i : Instr} (h : decode w = .ok i) : i.opc = cmdOpc w := by
  rw [← encode_of_decode h, encode, cmdOpc_commandWord]

/-- The decoder takes exactly the words that R134 calls legal. -/
theorem exists_decode_ok (w : Word) : (∃ i, decode w = .ok i) ↔ legalWord w = true := by
  have hopc := exists_decodeOpc_ok (cmdOpc w).toNat (cmdArg w)
  rw [toNat_cmdOpc, toNat_cmdArg] at hopc
  by_cases h : cmdRsv w = 0#8
  · simp [decode, legalWord, h, (cmdRsv_eq_zero w).1 h, toNat_cmdOpc, hopc]
  · simp [decode, legalWord, h, mt (cmdRsv_eq_zero w).2 h]

end Sys2Proof
end

section
/-! SUPPORT. The prologue of a command word, failure atomicity and the Fatal latch, with the obligations settled from them (spec 60_exceptions.md R222 to R227). -/

namespace Sys2Proof.Machine

/-! ### What an outcome leaves alone (R222, R225) -/

/-- A raise writes ERR, FATAL, FCAUSE and RESULT_LEN at most. -/
theorem raise_eq (r : Raise) (s : State) : raise r s = { s with
    err := (raise r s).err, fatal := (raise r s).fatal, fcause := (raise r s).fcause, resultLen := 0 } := by
  cases r <;> rfl

/-- Every command writes LAST_OPC, whatever its outcome (R227). -/
theorem runCommand_lastOpc (i : Instr) (opc : BitVec 8) (s : State) :
    (runCommand opc (bodyOf i) s).lastOpc = opc := by
  rcases runCommand_cases opc (bodyOf i) s with ⟨-, hrun⟩ | ⟨s', n, -, hok, hrun⟩ | ⟨r, -, -, hrun⟩
  · rw [hrun]
  · obtain ⟨⟨-, -, -, -, hopc, -⟩, -⟩ := bodyOf_frame hok
    rw [hrun, complete_lastOpc, hopc, withLastOpc_lastOpc]
  · rw [hrun, raise_lastOpc, withLastOpc_lastOpc]

/-- A command whose outcome is not OK writes STATUS and RESULT_LEN alone: it was refused, or its body raised and so
answered no state (R13, R225). -/
theorem runCommand_eq_of_err_ne_zero {opc : BitVec 8} {b : Body} {s : State} (h : (runCommand opc b s).err ≠ 0) :
    runCommand opc b s = { s with
      err := (runCommand opc b s).err, fatal := (runCommand opc b s).fatal, fcause := (runCommand opc b s).fcause
      lastOpc := (runCommand opc b s).lastOpc, resultLen := 0 } := by
  rcases runCommand_cases opc b s with ⟨-, hrun⟩ | ⟨s', n, -, -, hrun⟩ | ⟨r, -, -, hrun⟩
  · rw [hrun]
  · rw [hrun] at h
    exact absurd (complete_err s' n) h
  · rw [hrun, raise_lastOpc]
    exact raise_eq r (s.withLastOpc opc)

/-! ### A word written to CMD (R227) -/

/-- What runs after the prologue of a command word: the body of its command, or BADCMD where the word is illegal. -/
def bodyOfWord (w : Word) : Body :=
  match decode w with
  | .ok i => bodyOf i
  | .error _ => fun _ => .error .badCmd

theorem bodyOfWord_of_decode {w : Word} {i : Instr} (h : decode w = .ok i) : bodyOfWord w = bodyOf i := by
  simp [bodyOfWord, h]

theorem bodyOfWord_of_illegal {w : Word} (h : legalWord w = false) (s : State) :
    bodyOfWord w s = .error .badCmd := by
  cases hd : decode w with
  | ok i => exact absurd ((exists_decode_ok w).1 ⟨i, hd⟩) (by simp [h])
  | error e => simp [bodyOfWord, hd]

/-- Every word written to CMD, legal or not, passes the same prologue under its bits [7:0]. -/
theorem step_cmdWrite {s : State} {w : Word} {rest : List HostEvent} (h : s.host = cmdWrite s.cfg w :: rest) :
    step s = .next (runCommand (cmdOpc w) (bodyOfWord w)
      { s with host := rest, accessIndex := s.accessIndex + 1 }) := by
  rw [step, serveHost_cmdWrite h]
  cases hd : decode w with
  | ok i => simp [hd, exec_eq, bodyOfWord, opc_of_decode hd]
  | error e => simp [hd, illegalCommand, bodyOfWord]

/-! ### The Fatal latch (R226) -/

theorem writeReg_latch (s : State) (r : RegName) (v : Word) :
    (s.writeReg r v).fatal = s.fatal ∧ (s.writeReg r v).fcause = s.fcause := by
  cases r <;> exact ⟨rfl, rfl⟩

theorem writeTarget_latch (s : State) (t : Target) (w : Width) (v : Word) :
    (s.writeTarget t w v).fatal = s.fatal ∧ (s.writeTarget t w v).fcause = s.fcause := by
  cases t with
  | reg r => exact writeReg_latch s r v
  | buf a => exact ⟨rfl, rfl⟩

/-- The state in which the host's event leaves the FCE, before the command it starts; a bus error has none (R63). -/
def Served.state? : Served → Option State
  | .done s => some s
  | .command _ s => some s
  | .busError _ => none

/-- No access writes FATAL or FCAUSE: STATUS is read-only, and FBUF holds neither (R25, R27). -/
theorem serveAccess_latch {a : Access} {s u : State} (h : (serveAccess a s).state? = some u) :
    u.fatal = s.fatal ∧ u.fcause = s.fcause := by
  rcases serveAccess_cases a s with ⟨-, he⟩ | ⟨t, -, -, he⟩ | ⟨-, -, he⟩ | ⟨t, -, -, -, he⟩ <;>
    rw [he] at h <;> cases h
  · exact ⟨rfl, rfl⟩
  · exact ⟨rfl, rfl⟩
  · exact writeTarget_latch s t a.width a.data

/-- No host event but reset writes FATAL or FCAUSE. -/
theorem serveHost_latch {s u : State} (hr : s.host.head? ≠ some .reset) (h : (serveHost s).state? = some u) :
    u.fatal = s.fatal ∧ u.fcause = s.fcause := by
  unfold serveHost at h
  split at h
  · cases h; exact ⟨rfl, rfl⟩
  · rename_i rest hhost
    exact absurd (by rw [hhost]; rfl) hr
  · split at h
    · cases h; exact ⟨rfl, rfl⟩
    · exact (serveAccess_latch h :)

/-- A command under FATAL is refused, and a refusal does not write the latch (R227). -/
theorem runCommand_latch {s : State} (h : s.fatal = true) (opc : BitVec 8) (b : Body) :
    (runCommand opc b s).fatal = true ∧ (runCommand opc b s).fcause = s.fcause := by
  rw [runCommand_of_fatal h]
  exact ⟨h, rfl⟩

/-- No step but the reset event clears the latch: the host's event keeps it, and the command is refused. -/
theorem step_latch {s t : State} (hf : s.fatal = true) (hr : s.host.head? ≠ some .reset) (h : step s = .next t) :
    t.fatal = true ∧ t.fcause = s.fcause := by
  rcases step_cases h with hu | ⟨w, u, i, hu, -, rfl⟩ | ⟨w, u, e, hu, -, rfl⟩
  · obtain ⟨hfatal, hcause⟩ := serveHost_latch hr (congrArg Served.state? hu)
    exact ⟨hfatal.trans hf, hcause⟩
  all_goals
    obtain ⟨hfatal, hcause⟩ := serveHost_latch hr (congrArg Served.state? hu)
    rw [← hcause]
    exact runCommand_latch (hfatal.trans hf) _ _

/-- The step of the reset event (R250, R254). -/
theorem step_reset {s : State} {rest : List HostEvent} (h : s.host = .reset :: rest) :
    step s = .next { resetEvent s with host := rest } :=
  step_of_done (by simp [serveHost, h])

/-! ### The obligations -/

/-- Settles O5: one prologue for every word, then the outcome of `runCommand` in each of its cases. -/
theorem prologueOfEveryCommandWord : Obligations.PrologueOfEveryCommandWord := by
  intro s w rest h
  have hstep := step_cmdWrite h
  refine ⟨fun hf => ?_, fun hf hw => ?_, fun hf hw => ?_⟩
  · rw [hstep, runCommand_of_fatal (by exact hf)]
    rfl
  · rw [hstep, runCommand_of_error (by exact hf) (bodyOfWord_of_illegal hw _)]
    rfl
  · obtain ⟨i, hi⟩ := (exists_decode_ok w).2 hw
    rw [bodyOfWord_of_decode hi] at hstep
    refine ⟨i, _, encode_of_decode hi, ?_, hstep, runCommand_lastOpc i _ _⟩
    rw [hstep, exec_eq, opc_of_decode hi]

/-- Settles O14: a command that is refused or raises has no other state to leave behind. -/
theorem everyCommandIsFailureAtomic : Obligations.EveryCommandIsFailureAtomic := by
  intro i s
  exact ⟨_, exec_eq i s, runCommand_lastOpc i _ s, runCommand_eq_of_err_ne_zero⟩

/-- Settles O17: a Fatal raise sets the latch, every other step keeps it, and reset starts from all 0. -/
theorem fatalIsLatchedUntilReset : Obligations.FatalIsLatchedUntilReset := by
  intro s
  exact ⟨fun c => raise_fatal_eq c s, fun t => step_latch, fun rest h => ⟨_, step_reset h, rfl, rfl⟩⟩

end Sys2Proof.Machine
end

section
/-! SUPPORT. What the registers read after the reset event, with the obligation settled from it (spec 70_reset_and_hazards.md R250). -/

namespace Sys2Proof.Machine

/-! ### What the registers read after reset (R250) -/

/-- ID and CAP0 to CAP2 show the build and nothing else (R23). -/
theorem readReg_of_cfg_eq {s t : State} {r : RegName} (hr : r = .id ∨ r = .cap0 ∨ r = .cap1 ∨ r = .cap2)
    (hcfg : t.cfg = s.cfg) : t.readReg r = s.readReg r := by
  rcases hr with rfl | rfl | rfl | rfl <;> simp only [State.readReg, hcfg]

@[simp] theorem addrLo_zero : addrLo 0#48 = 0#32 := by decide

@[simp] theorem addrHi_zero : addrHi 0#48 = 0#32 := by decide

/-- STATUS reads 0 where all its fields are 0 (R27). -/
theorem statusWord_eq_zero {s : State} (herr : s.err = 0) (hfatal : s.fatal = false) (hcause : s.fcause = 0)
    (hopc : s.lastOpc = 0) : s.statusWord = 0 := by
  rw [State.statusWord, herr, hfatal, hcause, hopc]
  decide

/-- Each register that does not show the build reads a field that the reset event writes 0, or, for UI_COUNT, the length
of the table it empties. -/
theorem readReg_reset_eq_zero {s : State} (rest : List HostEvent) {r : RegName}
    (hr : ¬(r = .id ∨ r = .cap0 ∨ r = .cap1 ∨ r = .cap2)) :
    ({ resetEvent s with host := rest } : State).readReg r = 0 := by
  simp only [not_or] at hr
  obtain ⟨hid, hcap0, hcap1, hcap2⟩ := hr
  cases r
  case id => exact absurd rfl hid
  case cap0 => exact absurd rfl hcap0
  case cap1 => exact absurd rfl hcap1
  case cap2 => exact absurd rfl hcap2
  case status => exact statusWord_eq_zero rfl rfl rfl rfl
  all_goals simp [State.readReg, State.uiCount, Hdr.zero, Resolved.zero]

/-- A step that clears FATAL takes the reset event: every other step keeps the latch (R226). -/
theorem head_host_of_fatal_cleared {s t : State} (hf : s.fatal = true) (h : step s = .next t)
    (hc : t.fatal = false) : s.host.head? = some .reset := by
  by_contra hr
  obtain ⟨hkept, -⟩ := step_latch hf hr h
  exact Bool.false_ne_true (hc.symm.trans hkept)

/-! ### The obligation -/

/-- Settles O18: the build stays and every other register's field is cleared; the latch rules out the other events. -/
theorem resetClearsEveryRegister : Obligations.ResetClearsEveryRegister := by
  refine ⟨fun s rest h => ⟨_, step_reset h, fun r => ?_, rfl, rfl, rfl, rfl⟩, fun s t => head_host_of_fatal_cleared⟩
  split
  · rename_i hbuild
    exact readReg_of_cfg_eq hbuild rfl
  · rename_i hother
    exact readReg_reset_eq_zero rest hother

end Sys2Proof.Machine
end

section
/-! SUPPORT. The decoder and the encoder as inverses, with the obligations about the command word settled from it (spec 30_encoding.md R90, R91, R134). -/

namespace Sys2Proof

/-- An AID put into an operand is read back, ARG[15:12] being 0 (R91). -/
theorem aidArg_setWidth (f : BitVec 12 → Instr) (a : BitVec 12) : aidArg f (a.setWidth 16) = .ok (f a) := by
  have ha := a.isLt
  have hreserved : (a.setWidth 16).extractLsb' 12 4 = 0#4 := by
    rw [extract_aidReserved_eq_zero, BitVec.toNat_setWidth]
    omega
  have hread : (a.setWidth 16).extractLsb' 0 12 = a := by
    apply BitVec.eq_of_toNat_eq
    rw [BitVec.extractLsb'_toNat, BitVec.toNat_setWidth, Nat.shiftRight_zero]
    omega
  rw [aidArg, if_pos hreserved, hread]

/-- The row of a command's opcode takes the command's operand (R91). -/
theorem decodeOpc_opc_arg (i : Instr) : decodeOpc i.opc.toNat i.arg = .ok i := by
  cases i
  case uiRemove a => exact aidArg_setWidth .uiRemove a
  case uiLookup a => exact aidArg_setWidth .uiLookup a
  all_goals rfl

theorem decode_encode (i : Instr) : decode (encode i) = .ok i := by
  have hrsv : cmdRsv (commandWord i.opc i.arg) = 0#8 := cmdRsv_commandWord i.opc i.arg
  rw [decode, encode, if_pos hrsv, cmdOpc_commandWord, cmdArg_commandWord, decodeOpc_opc_arg]

/-- Settles O1: the fields of an encoding are read back, and a decoded word is put together from its fields. -/
theorem decodeAndEncodeAreInverse : Obligations.DecodeAndEncodeAreInverse := by
  intro i w
  refine ⟨fun h => (encode_of_decode h).symm, ?_⟩
  rintro rfl
  exact decode_encode i

/-- Settles O2: the opcode map and the table of R91 accept the same words. -/
theorem decodeAcceptsExactlyTheLegalWords : Obligations.DecodeAcceptsExactlyTheLegalWords :=
  exists_decode_ok

/-- Settles O3, by running the decoder on each word. -/
theorem wordsOfTheOpcodeMapDecode : Obligations.WordsOfTheOpcodeMapDecode := by
  unfold Obligations.WordsOfTheOpcodeMapDecode
  decide

end Sys2Proof
end

section
/-! SUPPORT. The register file, with the obligations about it settled (spec 10_state.md R22 to R41). -/

namespace Sys2Proof.Machine

/-! ### What a register write changes, field by field (R24, R25) -/

section
variable (s : State) (r : RegName) (v : Word)

/-- A register write reaches the control, header, Trigger and staging registers at most. -/
theorem writeReg_eq : s.writeReg r v = { s with
    bufOff := (s.writeReg r v).bufOff, inLen := (s.writeReg r v).inLen, hdr := (s.writeReg r v).hdr
    trgCi := (s.writeReg r v).trgCi, uiW0 := (s.writeReg r v).uiW0, uiW1 := (s.writeReg r v).uiW1 } := by
  cases r <;> rfl

theorem writeReg_bufOff : (s.writeReg r v).bufOff = if r = .bufOff then v.extractLsb' 0 12 else s.bufOff := by
  cases r <;> rfl

theorem writeReg_inLen : (s.writeReg r v).inLen = if r = .inLen then v.extractLsb' 0 13 else s.inLen := by
  cases r <;> rfl

theorem writeReg_fc : (s.writeReg r v).hdr.fc = if r = .hdrFc then v.extractLsb' 0 16 else s.hdr.fc := by
  cases r <;> rfl

theorem writeReg_dur : (s.writeReg r v).hdr.dur = if r = .hdrDur then v.extractLsb' 0 16 else s.hdr.dur := by
  cases r <;> rfl

theorem writeReg_a1 : (s.writeReg r v).hdr.a1 =
    if r = .hdrA1Lo then addrWithLo s.hdr.a1 v else if r = .hdrA1Hi then addrWithHi s.hdr.a1 v else s.hdr.a1 := by
  cases r <;> rfl

theorem writeReg_a2 : (s.writeReg r v).hdr.a2 =
    if r = .hdrA2Lo then addrWithLo s.hdr.a2 v else if r = .hdrA2Hi then addrWithHi s.hdr.a2 v else s.hdr.a2 := by
  cases r <;> rfl

theorem writeReg_a3 : (s.writeReg r v).hdr.a3 =
    if r = .hdrA3Lo then addrWithLo s.hdr.a3 v else if r = .hdrA3Hi then addrWithHi s.hdr.a3 v else s.hdr.a3 := by
  cases r <;> rfl

theorem writeReg_a4 : (s.writeReg r v).hdr.a4 =
    if r = .hdrA4Lo then addrWithLo s.hdr.a4 v else if r = .hdrA4Hi then addrWithHi s.hdr.a4 v else s.hdr.a4 := by
  cases r <;> rfl

theorem writeReg_seqctl :
    (s.writeReg r v).hdr.seqctl = if r = .hdrSeqctl then v.extractLsb' 0 16 else s.hdr.seqctl := by
  cases r <;> rfl

theorem writeReg_qosctl :
    (s.writeReg r v).hdr.qosctl = if r = .hdrQosctl then v.extractLsb' 0 16 else s.hdr.qosctl := by
  cases r <;> rfl

theorem writeReg_htc : (s.writeReg r v).hdr.htc = if r = .hdrHtc then v else s.hdr.htc := by
  cases r <;> rfl

theorem writeReg_trgCi : (s.writeReg r v).trgCi =
    if r = .trgCiLo then (s.trgCi.extractLsb' 32 32 ++ v : BitVec (32 + 32))
    else if r = .trgCiHi then (v ++ s.trgCi.extractLsb' 0 32 : BitVec (32 + 32)) else s.trgCi := by
  cases r <;> rfl

theorem writeReg_uiW0 : (s.writeReg r v).uiW0 = if r = .uiW0 then v else s.uiW0 := by cases r <;> rfl

theorem writeReg_uiW1 : (s.writeReg r v).uiW1 = if r = .uiW1 then v else s.uiW1 := by cases r <;> rfl

end

/-! ### A register read after a register write (R24, R25, R33, R38) -/

/-- A read-only register, and CMD, hold nothing of what is written to them (R25, R26). -/
theorem writeReg_of_access_ne_rw {r : RegName} (h : r.access ≠ .rw) (s : State) (v : Word) :
    s.writeReg r v = s := by
  cases r
  case bufOff | inLen | hdrFc | hdrDur | hdrA1Lo | hdrA1Hi | hdrA2Lo | hdrA2Hi | hdrA3Lo | hdrA3Hi | hdrA4Lo
    | hdrA4Hi | hdrSeqctl | hdrQosctl | hdrHtc | trgCiLo | trgCiHi | uiW0 | uiW1 => exact absurd rfl h
  all_goals rfl

/-- A writable register reads the implemented bits of what was written to it. -/
theorem readReg_writeReg_same {r : RegName} (h : r.access = .rw) (s : State) (v : Word) :
    (s.writeReg r v).readReg r = v &&& r.mask := by
  have hall : v &&& 0xFFFFFFFF#32 = v := BitVec.and_allOnes
  cases r
  case bufOff => exact setWidth_extract_low v 12 (by decide)
  case inLen => exact setWidth_extract_low v 13 (by decide)
  case hdrFc | hdrDur | hdrSeqctl | hdrQosctl => exact setWidth_extract_low v 16 (by decide)
  case hdrA1Lo | hdrA2Lo | hdrA3Lo | hdrA4Lo => exact (addrLo_withLo _ v).trans hall.symm
  case hdrA1Hi | hdrA2Hi | hdrA3Hi | hdrA4Hi => exact addrHi_withHi _ v
  case hdrHtc | uiW0 | uiW1 => exact hall.symm
  case trgCiLo => exact (extract_low_append (m := 32) (n := 32) _ v).trans hall.symm
  case trgCiHi => exact (extract_high_append (m := 32) (n := 32) v _).trans hall.symm
  all_goals cases h

/-- Every other register reads as before: it shows a field the write does not reach, or the other half of the address
or of the common information that the written register shows. -/
theorem readReg_writeReg_of_ne {r q : RegName} (h : r ≠ q) (s : State) (v : Word) :
    (s.writeReg r v).readReg q = s.readReg q := by
  have hciLo : (v ++ s.trgCi.extractLsb' 0 32 : BitVec (32 + 32)).extractLsb' 0 32 = s.trgCi.extractLsb' 0 32 :=
    extract_low_append (m := 32) (n := 32) v _
  have hciHi : (s.trgCi.extractLsb' 32 32 ++ v : BitVec (32 + 32)).extractLsb' 32 32 = s.trgCi.extractLsb' 32 32 :=
    extract_high_append (m := 32) (n := 32) _ v
  cases q
  case bufOff => simp only [State.readReg, writeReg_bufOff, if_neg h]
  case inLen => simp only [State.readReg, writeReg_inLen, if_neg h]
  case hdrFc => simp only [State.readReg, writeReg_fc, if_neg h]
  case hdrDur => simp only [State.readReg, writeReg_dur, if_neg h]
  case hdrA1Lo | hdrA1Hi => simp [State.readReg, writeReg_a1, h, apply_ite addrLo, apply_ite addrHi]
  case hdrA2Lo | hdrA2Hi => simp [State.readReg, writeReg_a2, h, apply_ite addrLo, apply_ite addrHi]
  case hdrA3Lo | hdrA3Hi => simp [State.readReg, writeReg_a3, h, apply_ite addrLo, apply_ite addrHi]
  case hdrA4Lo | hdrA4Hi => simp [State.readReg, writeReg_a4, h, apply_ite addrLo, apply_ite addrHi]
  case hdrSeqctl => simp only [State.readReg, writeReg_seqctl, if_neg h]
  case hdrQosctl => simp only [State.readReg, writeReg_qosctl, if_neg h]
  case hdrHtc => simp only [State.readReg, writeReg_htc, if_neg h]
  case trgCiLo =>
    simp only [State.readReg, writeReg_trgCi, if_neg h]
    split
    · exact hciLo
    · rfl
  case trgCiHi =>
    simp only [State.readReg, writeReg_trgCi, if_neg h]
    split
    · exact hciHi
    · rfl
  case uiW0 => simp only [State.readReg, writeReg_uiW0, if_neg h]
  case uiW1 => simp only [State.readReg, writeReg_uiW1, if_neg h]
  all_goals rw [writeReg_eq]; rfl

/-! ### Reserved bits (R25) -/

/-- A value narrower than the slot has no bit outside the mask of its width. -/
theorem setWidth_and_not_mask {k : Nat} (x : BitVec k) (hk : k < 32) :
    x.setWidth 32 &&& ~~~ BitVec.ofNat 32 (2 ^ k - 1) = 0 := by
  have hx : x.setWidth 32 = x.setWidth 32 &&& BitVec.ofNat 32 (2 ^ k - 1) := by
    have hlow : (x.setWidth 32).extractLsb' 0 k = x := by
      apply BitVec.eq_of_toNat_eq
      have := x.isLt
      have : 2 ^ k < 2 ^ 32 := Nat.pow_lt_pow_right (by omega) hk
      rw [BitVec.extractLsb'_toNat, BitVec.toNat_setWidth, Nat.shiftRight_zero, Nat.mod_eq_of_lt (by omega),
        Nat.mod_eq_of_lt (by omega)]
    rw [← setWidth_extract_low _ k hk, hlow]
  rw [hx, BitVec.and_assoc, BitVec.and_not_self]
  exact BitVec.and_zero

/-- The reserved bits of STATUS are the two gaps between its fields and the octet above them (R27). -/
theorem statusWord_and_not_mask (s : State) : s.statusWord &&& ~~~ RegName.status.mask = 0 := by
  have hmask : ~~~ RegName.status.mask = 0xFF#8 ++ 0#8 ++ 0#4 ++ 0x7#3 ++ 0#1 ++ 0xF#4 ++ 0#4 := by decide
  have hgaps (opc : BitVec 8) (cause : BitVec 4) (fatal : BitVec 1) (err : BitVec 4) :
      (0#8 ++ opc ++ cause ++ 0#3 ++ fatal ++ 0#4 ++ err)
        &&& (0xFF#8 ++ 0#8 ++ 0#4 ++ 0x7#3 ++ 0#1 ++ 0xF#4 ++ 0#4) = 0#_ := by
    repeat rw [BitVec.and_append]
    simp
  rw [hmask]
  exact hgaps _ _ _ _

/-- The reserved bits of CAP1 stand above UI_ORDER (R23). -/
theorem cap1_and_not_mask (s : State) : s.readReg .cap1 &&& ~~~ RegName.cap1.mask = 0 := by
  have hmask : ~~~ RegName.cap1.mask = 0x7F#7 ++ 0#1 ++ 0#8 ++ 0#16 := by decide
  have hgap (order : BitVec 1) (cap : BitVec 8) (data : BitVec 16) :
      (0#7 ++ order ++ cap ++ data) &&& (0x7F#7 ++ 0#1 ++ 0#8 ++ 0#16) = 0#_ := by
    repeat rw [BitVec.and_append]
    simp
  rw [hmask]
  exact hgap _ _ _

/-- The reserved bits of CAP2 stand above the 13 bits of BUF_SIZE (R23). -/
theorem cap2_and_not_mask (s : State) : s.readReg .cap2 &&& ~~~ RegName.cap2.mask = 0 := by
  have hmask : ~~~ RegName.cap2.mask = 0x7FFFF#19 ++ 0#13 := by decide
  have hgap (size : BitVec 13) : (0#19 ++ size) &&& (0x7FFFF#19 ++ 0#13) = 0#_ := by
    repeat rw [BitVec.and_append]
    simp
  rw [hmask]
  exact hgap _

/-- A reserved bit reads 0 in every register. -/
theorem readReg_and_not_mask (s : State) (r : RegName) : s.readReg r &&& ~~~ r.mask = 0 := by
  cases r
  case cap1 => exact cap1_and_not_mask s
  case cap2 => exact cap2_and_not_mask s
  case status => exact statusWord_and_not_mask s
  -- the narrow registers, then those that fill their slot
  case bufOff | inLen | resultLen | hdrFc | hdrDur | hdrA1Hi | hdrA2Hi | hdrA3Hi | hdrA4Hi | hdrSeqctl | hdrQosctl
    | resValid | resDaHi | resSaHi | resBssidHi | resRaHi | resTaHi | uiCount | uiPos =>
    exact setWidth_and_not_mask _ (by decide)
  all_goals exact BitVec.and_zero

/-! ### The obligation -/

/-- Settles O9: the written register, the read-only ones, the others, and the reserved bits in turn. -/
theorem registersFollowTheirAccessAndBits : Obligations.RegistersFollowTheirAccessAndBits := by
  intro s r v
  exact ⟨fun h => readReg_writeReg_same h s v, fun h => writeReg_of_access_ne_rw h s v,
    fun q hq => readReg_writeReg_of_ne hq.symm s v, readReg_and_not_mask s r, rfl⟩

end Sys2Proof.Machine
end

section
/-! SUPPORT. Register and buffer accesses, and octet sequences as sums, with the obligations settled from them (spec 20_memory.md R60 to R71, 00_scope.md R11). -/

namespace Sys2Proof.Machine

/-! ### What an access can reach (R61, R62) -/

/-- An access reaches the register at its offset, or octets that lie in the buffer. -/
theorem target_eq_some {p : Params} {o : BitVec 13} {w : Width} {g : Target} (h : target p o w = some g) :
    (∃ r : RegName, g = .reg r ∧ r.offset = o.toNat) ∨ ∃ a, g = .buf a ∧ a + w.octets ≤ p.bufSize := by
  unfold target at h
  split at h
  · split at h
    · obtain ⟨r, hr, rfl⟩ := Option.map_eq_some_iff.1 h
      exact .inl ⟨r, rfl, offset_of_ofOffset hr⟩
    · cases h
  · split at h
    · rename_i hlegal
      exact .inr ⟨_, (Option.some.inj h).symm, hlegal.2⟩
    · cases h

/-- CMD is reached at its own offset alone. -/
theorem offset_of_target_cmd {p : Params} {o : BitVec 13} {w : Width} (h : target p o w = some (.reg .cmd)) :
    o = 0x010#13 := by
  obtain ⟨r, hr, ho⟩ | ⟨a, ha, -⟩ := target_eq_some h
  · cases hr
    exact BitVec.eq_of_toNat_eq ho.symm
  · cases ha

theorem le_bufSize_of_target_buf {p : Params} {o : BitVec 13} {w : Width} {a : Nat}
    (h : target p o w = some (.buf a)) : a + w.octets ≤ p.bufSize := by
  obtain ⟨r, hr, -⟩ | ⟨b, hb, hle⟩ := target_eq_some h
  · cases hr
  · cases hb
    exact hle

/-- What a write can do to the FCE: it writes registers' fields or FBUF, and nothing that is read-only (R25). -/
theorem writeTarget_eq (s : State) (t : Target) (w : Width) (v : Word) : s.writeTarget t w v = { s with
    bufOff := (s.writeTarget t w v).bufOff, inLen := (s.writeTarget t w v).inLen
    hdr := (s.writeTarget t w v).hdr, trgCi := (s.writeTarget t w v).trgCi
    uiW0 := (s.writeTarget t w v).uiW0, uiW1 := (s.writeTarget t w v).uiW1
    fbuf := (s.writeTarget t w v).fbuf } := by
  cases t with
  | reg r => cases r <;> rfl
  | buf a => rfl

/-- An access that starts no command is a read or a write of its target. -/
theorem step_access_cases {s t : State} {a : Access} {rest : List HostEvent} (h : s.host = a.event s.cfg :: rest)
    (hc : ¬ (a.kind = .write ∧ a.offset = 0x010#13)) (hstep : step s = .next t) :
    (∃ v, t = { s with host := rest, accessIndex := s.accessIndex + 1, reads := s.reads ++ [v] })
    ∨ ∃ g, t = { State.writeTarget { s with host := rest } g a.width a.data with
        accessIndex := s.accessIndex + 1 } := by
  rw [step, serveHost_event h] at hstep
  rcases serveAccess_cases a { s with host := rest } with
    ⟨-, he⟩ | ⟨g, -, -, he⟩ | ⟨hg, hk, -⟩ | ⟨g, -, -, -, he⟩
  · rw [he] at hstep
    cases hstep
  · rw [he] at hstep
    cases hstep
    exact .inl ⟨_, rfl⟩
  · exact absurd ⟨hk, offset_of_target_cmd hg⟩ hc
  · rw [he] at hstep
    cases hstep
    exact .inr ⟨g, rfl⟩

/-- An address outside the window has no offset in it (R61). -/
theorem windowOffset_eq_none {p : Params} {addr : Nat} (h : addr < p.fceBase ∨ p.fceBase + 0x2000 ≤ addr) :
    windowOffset p addr = none := by
  rw [windowOffset, if_neg (by omega)]

/-! ### Octet sequences (R11) -/

/-- `MemRead` as the sum of R11. -/
theorem memRead_eq_sum (s : State) (a n : Nat) :
    s.memRead a n = ∑ i ∈ Finset.range n, (s.octet (a + i)).toNat * 256 ^ i := by
  induction n generalizing a with
  | zero => rfl
  | succ n ih =>
    have hshift : s.memRead (a + 1) n = ∑ i ∈ Finset.range n, (s.octet (a + (i + 1))).toNat * 256 ^ i := by
      simpa only [Nat.add_assoc, Nat.add_comm 1] using ih (a + 1)
    calc s.memRead a (n + 1) = (s.octet a).toNat + 256 * s.memRead (a + 1) n := rfl
      _ = ∑ i ∈ Finset.range (n + 1), (s.octet (a + i)).toNat * 256 ^ i := by
        rw [hshift, Finset.sum_range_succ', Finset.mul_sum, Nat.add_comm]
        simp only [pow_succ, Nat.add_zero, pow_zero, Nat.mul_one]
        exact congrArg (· + _) (Finset.sum_congr rfl fun i _ => by ring)

/-! ### The obligations -/

/-- Settles O4: the write to CMD is handed over as a command, and decoding names it. -/
theorem stepRunsTheDecodedCommand : Obligations.StepRunsTheDecodedCommand := by
  intro s w i rest h hd
  rw [step, serveHost_cmdWrite h]
  simp only [hd]

/-- Settles O7: the access reaches its register. -/
theorem registerReadsHaveNoSideEffect : Obligations.RegisterReadsHaveNoSideEffect :=
  fun s r _ _ h => step_read h (target_reg s.cfg r)

/-- Settles O8: the access reaches its register, whose write does not look at the host's events. -/
theorem registerWritesReachTheirRegister : Obligations.RegisterWritesReachTheirRegister := by
  intro s r d rest hr h
  have hc : Target.reg r ≠ .reg .cmd := fun he => hr (Target.reg.inj he)
  rw [step_write h (target_reg s.cfg r) hc]
  cases r <;> rfl

/-- Settles O11: a read changes the host's side alone, and a write writes none of these fields. -/
theorem hostAccessesLeaveReadOnlyStateAlone : Obligations.HostAccessesLeaveReadOnlyStateAlone := by
  intro s t a rest h hc hstep
  rcases step_access_cases h hc hstep with ⟨v, rfl⟩ | ⟨g, rfl⟩
  · exact ⟨rfl, rfl, rfl, rfl, rfl, rfl, rfl⟩
  · rw [writeTarget_eq]
    exact ⟨rfl, rfl, rfl, rfl, rfl, rfl, rfl⟩

/-- Settles O12: with no event, or an address that has no offset, there is nothing to serve. -/
theorem theEngineActsOnlyOnItsOwnEvents : Obligations.TheEngineActsOnlyOnItsOwnEvents := by
  intro s
  refine ⟨fun h => step_of_done ?_, fun k addr w d rest h hout => step_of_done ?_⟩
  · rw [serveHost, h]
  · rw [serveHost, h]
    simp only [windowOffset_eq_none hout]

/-- Settles O13: the sum is the recursion of `MemRead`, and the octets are those of the value written. -/
theorem memReadAndMemWriteAreLittleEndian : Obligations.MemReadAndMemWriteAreLittleEndian := by
  intro s a n v
  refine ⟨memRead_eq_sum s a n, fun i hi => ?_, octet_memWrite_outside s a n v⟩
  rw [octet_memWrite_inside s a n v i hi, BitVec.toNat_ofNat, pow_mul,
    show 2 ^ 8 = 256 by decide]

end Sys2Proof.Machine
end

section
/-! SUPPORT. What each command can raise and which state it can write, with the obligations about outcomes settled from it (spec 60_exceptions.md R221 to R231). -/

namespace Sys2Proof.Machine

/-! ### Inversion of the bodies: what each can raise (R221, columns "raised by") -/

theorem hdrSizeBody_error {s : State} {r : Raise} (h : hdrSizeBody s = .error r) : r = .fatal .hdrEnum := by
  unfold hdrSizeBody at h
  split_ifs at h
  cases h
  rfl

theorem hdrEncodeBody_error {s : State} {r : Raise} (h : hdrEncodeBody s = .error r) :
    r = .bounds ∨ r = .fatal .hdrEnum := by
  unfold hdrEncodeBody at h
  split_ifs at h <;> cases h <;> simp

theorem addrResolveBody_error {s : State} {r : Raise} (h : addrResolveBody s = .error r) :
    r = .notData ∨ r = .fatal .hdrEnum := by
  unfold addrResolveBody at h
  split_ifs at h <;> cases h <;> simp

theorem uiInsertBody_error {s : State} {r : Raise} (h : uiInsertBody s = .error r) :
    r = .capacity ∧ (∀ x ∈ s.ui, x.aid ≠ s.staged.aid) ∧ s.ui.length = s.cfg.uiCap := by
  unfold uiInsertBody at h
  split at h
  · cases h
  · rename_i hnone
    split_ifs at h with hfull
    cases h
    exact ⟨rfl, findAid_none.1 hnone, hfull⟩

theorem uiRemoveBody_error {aid : BitVec 12} {s : State} {r : Raise} (h : uiRemoveBody aid s = .error r) :
    r = .notFound := by
  unfold uiRemoveBody at h
  split at h <;> cases h
  rfl

theorem uiLookupBody_error {aid : BitVec 12} {s : State} {r : Raise} (h : uiLookupBody aid s = .error r) :
    r = .notFound := by
  unfold uiLookupBody at h
  split at h <;> cases h
  rfl

theorem uiReadBody_error {pos : BitVec 16} {s : State} {r : Raise} (h : uiReadBody pos s = .error r) :
    r = .notFound := by
  unfold uiReadBody at h
  split at h <;> cases h
  rfl

theorem trgSizeBody_error {s : State} {r : Raise} (h : trgSizeBody s = .error r) : r = .fatal .trgEnum := by
  unfold trgSizeBody at h
  split at h <;> cases h
  rfl

theorem trgEncodeBody_error {s : State} {r : Raise} (h : trgEncodeBody s = .error r) :
    r = .bounds ∨ r = .fatal .trgEnum := by
  unfold trgEncodeBody at h
  split at h
  · cases h
    simp
  · split_ifs at h
    cases h
    simp

theorem trgDecodeBody_error {s : State} {r : Raise} (h : trgDecodeBody s = .error r) :
    r = .bounds ∨ r = .short ∨ r = .unknown ∨ r = .capacity ∨ r = .count := by
  unfold trgDecodeBody at h
  split at h
  · cases h; simp
  split at h
  · cases h; simp
  split at h
  · cases h; simp
  split_ifs at h <;> cases h <;> simp

/-- The commands that raise an outcome, as R221 lists them; BADCMD and REFUSED are the prologue's. -/
def Raise.RaisedBy : Raise → Instr → Prop
  | .short, i => i = .hdrDecode ∨ i = .trgDecode
  | .unknown, i => i = .hdrDecode ∨ i = .trgDecode
  | .count, i => i = .trgDecode
  | .bounds, i => i = .hdrEncode ∨ i = .hdrDecode ∨ i = .trgEncode ∨ i = .trgDecode
  | .capacity, i => i = .uiInsert ∨ i = .trgDecode
  | .notFound, i => (∃ a, i = .uiRemove a) ∨ (∃ a, i = .uiLookup a) ∨ ∃ k, i = .uiRead k
  | .badCmd, _ => False
  | .refused, _ => False
  | .notData, i => i = .addrResolve
  | .fatal .addr4, i => i = .hdrDecode
  | .fatal .hdrEnum, i => i = .hdrSize ∨ i = .hdrEncode ∨ i = .addrResolve
  | .fatal .trgEnum, i => i = .trgSize ∨ i = .trgEncode

/-- A body raises only what R221 lists for its command. -/
theorem raisedBy_of_bodyOf_error {i : Instr} {s : State} {r : Raise} (h : bodyOf i s = .error r) : r.RaisedBy i := by
  cases i with
  | nop => cases h
  | hdrSize => obtain rfl := hdrSizeBody_error h; exact .inl rfl
  | hdrEncode => obtain rfl | rfl := hdrEncodeBody_error h <;> simp [Raise.RaisedBy]
  | hdrDecode => obtain rfl | rfl | rfl | rfl := hdrDecodeBody_error h <;> simp [Raise.RaisedBy]
  | addrResolve => obtain rfl | rfl := addrResolveBody_error h <;> simp [Raise.RaisedBy]
  | hdrClear => cases h
  | uiClear => cases h
  | uiInsert => obtain ⟨rfl, -⟩ := uiInsertBody_error h; exact .inl rfl
  | uiRemove aid => obtain rfl := uiRemoveBody_error h; exact .inl ⟨aid, rfl⟩
  | uiLookup aid => obtain rfl := uiLookupBody_error h; exact .inr (.inl ⟨aid, rfl⟩)
  | uiRead pos => obtain rfl := uiReadBody_error h; exact .inr (.inr ⟨pos, rfl⟩)
  | trgSize => obtain rfl := trgSizeBody_error h; exact .inl rfl
  | trgEncode => obtain rfl | rfl := trgEncodeBody_error h <;> simp [Raise.RaisedBy]
  | trgDecode => obtain rfl | rfl | rfl | rfl | rfl := trgDecodeBody_error h <;> simp [Raise.RaisedBy]

/-- The six commands that can raise Fatal (R221, R231). -/
theorem mem_of_raisedBy_fatal {c : FatalCause} {i : Instr} (h : (Raise.fatal c).RaisedBy i) :
    i ∈ [.hdrSize, .hdrEncode, .hdrDecode, .addrResolve, .trgSize, .trgEncode] := by
  cases c with
  | addr4 => obtain rfl := h; simp
  | hdrEnum => obtain rfl | rfl | rfl := h <;> simp
  | trgEnum => obtain rfl | rfl := h <;> simp

/-! ### The outcomes of a command in service (R222, R227) -/

/-- A command in service completes or raises, as its body does. -/
theorem exec_inService_cases {i : Instr} {s t : State} (hf : s.fatal = false) (h : exec i s = .next t) :
    (∃ s' n, bodyOf i (s.withLastOpc i.opc) = .ok (s', n) ∧ t = complete n s')
    ∨ ∃ r, bodyOf i (s.withLastOpc i.opc) = .error r ∧ t = raise r (s.withLastOpc i.opc) := by
  rw [exec_eq] at h
  cases h
  rcases runCommand_cases i.opc (bodyOf i) s with ⟨hfatal, -⟩ | ⟨s', n, -, hok, hrun⟩ | ⟨r, -, herr, hrun⟩
  · exact absurd (hf.symm.trans hfatal) Bool.false_ne_true
  · exact .inl ⟨s', n, hok, hrun⟩
  · exact .inr ⟨r, herr, hrun⟩

/-- The codes of R221: 1 to 9 for the outcomes that latch nothing, 10 for the Fatal ones. -/
theorem raise_code_cases (r : Raise) :
    (1 ≤ r.code.toNat ∧ r.code.toNat ≤ 9 ∧ r.cause = none) ∨ ∃ c, r = .fatal c := by
  cases r with
  | fatal c => exact .inr ⟨c, rfl⟩
  | _ => exact .inl (by simp [Raise.code, Raise.cause])

theorem FatalCause.code_bounds (c : FatalCause) : 1 ≤ c.code.toNat ∧ c.code.toNat ≤ 3 := by
  cases c <;> decide

/-- A command that cannot raise Fatal leaves an engine in service in service (R231). -/
theorem runCommand_inService {b : Body} {s : State} {opc : BitVec 8} (hf : s.fatal = false)
    (hok : ∀ s' n, b (s.withLastOpc opc) = .ok (s', n) → s'.fatal = false)
    (herr : ∀ r, b (s.withLastOpc opc) = .error r → r.cause = none) : (runCommand opc b s).fatal = false := by
  rcases runCommand_cases opc b s with ⟨hfatal, -⟩ | ⟨s', n, -, hb, hrun⟩ | ⟨r, -, hb, hrun⟩
  · exact absurd (hf.symm.trans hfatal) Bool.false_ne_true
  · rw [hrun, complete_fatal, hok s' n hb]
  · simp [hrun, herr r hb, hf]

theorem runCommand_bodyOf_inService {i : Instr} {s : State} (hf : s.fatal = false)
    (hi : i ∉ [.hdrSize, .hdrEncode, .hdrDecode, .addrResolve, .trgSize, .trgEncode]) :
    (runCommand i.opc (bodyOf i) s).fatal = false := by
  refine runCommand_inService hf (fun s' n hb => ?_) (fun r hb => ?_)
  · obtain ⟨⟨-, -, hfatal, -⟩, -⟩ := bodyOf_frame hb
    rw [hfatal, withLastOpc_fatal, hf]
  · rcases raise_code_cases r with ⟨-, -, hcause⟩ | ⟨c, rfl⟩
    · exact hcause
    · exact absurd (mem_of_raisedBy_fatal (raisedBy_of_bodyOf_error hb)) hi

/-- A legal access that starts none of the six commands is a safe step (R231). -/
theorem safeStep_of_legal {s : State} {a : Access} {rest : List HostEvent} (h : s.host = a.event s.cfg :: rest)
    (hf : s.InService) (hlegal : LegalAccess s.cfg a.offset a.width)
    (hcmd : a.kind = .write → a.offset = 0x010#13 → ∀ i, decode a.data = .ok i →
      i ∉ [.hdrSize, .hdrEncode, .hdrDecode, .addrResolve, .trgSize, .trgEncode]) : SafeStep s := by
  obtain ⟨g, hg⟩ := (exists_target_iff s.cfg a.offset a.width).2 hlegal
  rw [SafeStep, step, serveHost_event h]
  rcases serveAccess_cases a { s with host := rest } with
    ⟨hn, -⟩ | ⟨g, -, -, he⟩ | ⟨hreg, hk, he⟩ | ⟨g, -, -, -, he⟩
  · cases hg.symm.trans hn
  · rw [he]
    exact ⟨_, rfl, hf⟩
  · rw [he]
    cases hd : decode a.data with
    | ok i =>
      simp only [hd, exec_eq]
      exact ⟨_, rfl, runCommand_bodyOf_inService hf (hcmd hk (offset_of_target_cmd hreg) i hd)⟩
    | error e =>
      simp only [hd]
      refine ⟨_, rfl, runCommand_inService hf (fun _ _ hb => ?_) (fun r hb => ?_)⟩
      · cases hb
      · cases hb; rfl
  · rw [he, writeTarget_eq]
    exact ⟨_, rfl, hf⟩

/-! ### The obligations -/

/-- Settles O15: refused, completed, raised, and among the raises those with a cause. -/
theorem statusOfEveryOutcome : Obligations.StatusOfEveryOutcome := by
  intro i s t h
  rw [exec_eq] at h
  cases h
  rcases runCommand_cases i.opc (bodyOf i) s with
    ⟨-, hrun⟩ | ⟨s', n, hf, hok, hrun⟩ | ⟨r, hf, -, hrun⟩ <;> rw [hrun]
  · have hcode : 1 ≤ (8 : BitVec 4).toNat ∧ (8 : BitVec 4).toNat ≤ 9 := by decide
    exact .inr (.inl ⟨hcode.1, hcode.2, rfl, rfl⟩)
  · obtain ⟨⟨-, -, hfatal, hcause, -⟩, -⟩ := bodyOf_frame hok
    exact .inl ⟨rfl, hf, hfatal.trans hf, hcause⟩
  · rcases raise_code_cases r with ⟨hlo, hhi, hc⟩ | ⟨c, rfl⟩
    · exact .inr (.inl ⟨by simpa, by simpa, by simp [hc], by simp [hc]⟩)
    · exact .inr (.inr ⟨rfl, hf, rfl, c.code_bounds⟩)

/-- Settles O16: the outcome's code names the raise, whose commands are those of `Raise.RaisedBy`. -/
theorem eachOutcomeIsRaisedOnlyByItsCommands : Obligations.EachOutcomeIsRaisedOnlyByItsCommands := by
  refine ⟨fun i s t hf h => ?_, fun s a rest => safeStep_of_legal⟩
  rcases exec_inService_cases hf h with ⟨s', n, -, rfl⟩ | ⟨r, herr, rfl⟩
  · simp
  · have hr : r.RaisedBy i := raisedBy_of_bodyOf_error herr
    rw [raise_err, raise_fcause]
    cases r with
    | fatal c => cases c <;> simp_all [Raise.RaisedBy, Raise.code, Raise.cause, FatalCause.code]
    | badCmd => cases hr
    | refused => cases hr
    | _ => simp_all [Raise.RaisedBy, Raise.code]

/-- Settles O22: a completing body has the frame of its command, and the other outcomes write STATUS and RESULT_LEN. -/
theorem onlyTheNamedCommandsWriteEachPieceOfState : Obligations.OnlyTheNamedCommandsWriteEachPieceOfState := by
  intro i s t h
  by_cases herr : t.err = 0
  · obtain ⟨-, s', n, hok, rfl⟩ := exec_err_zero h herr
    obtain ⟨⟨hcfg, -, -, -, -, hoff, hlen, hepoch, hhost, hindex, hreads⟩,
      hhdr, hres, hci, hui, hw, hpos, hfbuf⟩ := bodyOf_frame hok
    exact ⟨⟨hcfg, hoff, hlen, hepoch, hhost, hindex, hreads⟩, hhdr, hres, hci, hui, hw, hpos,
      fun hh ht a => octet_congr (hfbuf hh ht) hepoch a⟩
  · rw [exec_eq] at h
    cases h
    rw [runCommand_eq_of_err_ne_zero herr]
    exact ⟨⟨rfl, rfl, rfl, rfl, rfl, rfl, rfl⟩, fun _ _ => rfl, fun _ => rfl, fun _ => rfl, fun _ _ _ _ => rfl,
      fun _ _ => ⟨rfl, rfl⟩, fun _ _ _ => rfl, fun _ _ a => octet_congr rfl rfl a⟩

end Sys2Proof.Machine
end

section
/-! SUPPORT. The invariant of the machine: it holds after reset, and every host event and every command keeps it (spec 10_state.md R37 to R42, 41_trigger_codec.md R202, 60_exceptions.md R221 to R227). -/

namespace Sys2Proof.Machine

/-! ### Reset (R250) -/

/-- After reset every part of the invariant speaks of zeroes and empty lists, for any legal build. -/
theorem inv_resetOf {p : Params} (hp : p.WellFormed) (epoch : Nat) : (State.resetOf p epoch).Inv := by
  have hstatus : (State.resetOf p epoch).StatusOk := by simp [State.StatusOk, State.resetOf]
  have hresolve : (State.resetOf p epoch).ResolveOk := by simp [State.ResolveOk, State.resetOf, Resolved.zero]
  have hlengths : (State.resetOf p epoch).LengthsOk := by simp [State.LengthsOk, State.resetOf]
  exact ⟨hp, ⟨Memory.wf_nil, by simp [State.resetOf]⟩, ⟨List.nodup_nil, Nat.zero_le _⟩,
    hstatus, hresolve, hlengths⟩

theorem wellFormed_reference : Config.reference.WellFormed := by decide

/-! ### FBUF (R42) -/

/-- A write within FBUF leaves no octet outside it. -/
theorem memoryOk_writeOctets {s : State} {a : Nat} {bs : List Byte} (h : s.MemoryOk)
    (hb : a + bs.length ≤ s.cfg.bufSize) : (s.writeOctets a bs).MemoryOk := by
  refine ⟨Memory.wf_writeOctets h.1 a bs, fun c hc => ?_⟩
  rcases Memory.mem_writeOctets hc with hc | ⟨-, hlt⟩
  · exact h.2 c hc
  · exact lt_of_lt_of_le hlt hb

theorem memoryOk_writeFields {s : State} {o : Nat} {hdr : Hdr} {fc : Half} (h : s.MemoryOk) (ht : fcType fc ≠ 3)
    (hb : o + hdrSize fc ≤ s.cfg.bufSize) : (s.writeFields o hdr (layout fc)).MemoryOk := by
  obtain ⟨hwf, hcells⟩ := writeFields_fbuf (o := o) (h := hdr) h.1 (layout_bound ht)
  have hcfg : (s.writeFields o hdr (layout fc)).cfg = s.cfg := by
    obtain ⟨m, hm⟩ := writeFields_eq s o hdr (layout fc)
    rw [hm]
  refine ⟨hwf, fun c hc => ?_⟩
  rw [hcfg]
  rcases hcells c hc with hc | hlt
  · exact h.2 c hc
  · exact lt_of_lt_of_le hlt hb

/-! ### The host's events -/

/-- A legal write keeps the invariant: a register write reaches none of its fields, a buffer write stays in FBUF. -/
theorem inv_writeTarget {s : State} {o : BitVec 13} {w : Width} {g : Target} (h : s.Inv)
    (hg : target s.cfg o w = some g) (v : Word) : (s.writeTarget g w v).Inv := by
  cases g with
  | reg r =>
    rw [State.writeTarget, writeReg_eq]
    exact h
  | buf a =>
    obtain ⟨hcfg, hmem, hrest⟩ := h
    have hb : a + (toOctets w.octets v.toNat).length ≤ s.cfg.bufSize := by
      rw [length_toOctets]
      exact le_bufSize_of_target_buf hg
    exact ⟨hcfg, memoryOk_writeOctets hmem hb, hrest⟩

theorem inv_serveAccess {a : Access} {s u : State} (h : s.Inv) (hu : (serveAccess a s).state? = some u) : u.Inv := by
  rcases serveAccess_cases a s with ⟨-, he⟩ | ⟨g, -, -, he⟩ | ⟨-, -, he⟩ | ⟨g, hg, -, -, he⟩ <;>
    rw [he] at hu <;> cases hu
  · exact h
  · exact h
  · exact inv_writeTarget h hg a.data

/-- No host event breaks the invariant. -/
theorem inv_serveHost {s u : State} (h : s.Inv) (hu : (serveHost s).state? = some u) : u.Inv := by
  unfold serveHost at hu
  split at hu
  · cases hu
    exact h
  · cases hu
    exact inv_resetOf h.1 (s.fbufEpoch + 1)
  · split at hu
    · cases hu
      exact h
    · refine inv_serveAccess ?_ hu
      exact h

/-! ### What a completing body keeps, part by part -/

section
variable {i : Instr} {s s' : State} {n : Nat}

/-- The two encoders check their bounds before they write (R144, R197); no other command writes FBUF. -/
theorem memoryOk_of_bodyOf (hm : s.MemoryOk) (h : bodyOf i s = .ok (s', n)) : s'.MemoryOk := by
  by_cases hh : i = .hdrEncode
  · subst hh
    obtain ⟨hr, hb, rfl, -⟩ := hdrEncodeBody_ok h
    exact memoryOk_writeFields hm (fcType_ne_of_recognized hr) hb
  by_cases ht : i = .trgEncode
  · subst ht
    obtain ⟨ty, -, rfl, hb, rfl⟩ := trgEncodeBody_ok h
    exact memoryOk_writeOctets hm (by rwa [length_trgBody])
  · obtain ⟨⟨hcfg, -⟩, -, -, -, -, -, -, hfbuf⟩ := bodyOf_frame h
    rw [State.MemoryOk, hcfg, hfbuf hh ht]
    exact hm

/-- Replacing the entry with the staged AID leaves the AIDs of the table as they are (R184). -/
theorem map_aid_set {l : List UiEntry} {e : UiEntry} {k : Nat} (h : findAid l e.aid = some k) :
    (l.set k e).map UiEntry.aid = l.map UiEntry.aid := by
  obtain ⟨hk, haid⟩ := findAid_some h
  have hsame : e.aid = (l.map UiEntry.aid)[k]'(by simpa using hk) := by simp [haid]
  rw [List.map_set, hsame, List.set_getElem_self]

theorem tableOk_of_uiInsert (ht : s.TableOk) (h : uiInsertBody s = .ok (s', n)) : s'.TableOk := by
  obtain ⟨hnodup, hcap⟩ := ht
  obtain ⟨-, ⟨k, hk, rfl⟩ | ⟨hnone, hfull, rfl⟩⟩ := uiInsertBody_ok h
  · exact ⟨by rw [map_aid_set hk]; exact hnodup, by simpa [State.uiCount] using hcap⟩
  · have habsent : s.staged.aid ∉ s.ui.map UiEntry.aid := by
      intro hmem
      obtain ⟨x, hx, hxa⟩ := List.mem_map.1 hmem
      exact findAid_none.1 hnone x hx hxa
    refine ⟨?_, ?_⟩
    · rw [List.map_append]
      exact hnodup.append (List.nodup_singleton _) (by simpa using habsent)
    · simp only [State.uiCount, List.length_append, List.length_singleton] at hcap hfull ⊢
      omega

/-- Every command that writes the table keeps its AIDs distinct and its count within UI_CAP (R183, R184, R186, R200). -/
theorem tableOk_of_bodyOf (ht : s.TableOk) (h : bodyOf i s = .ok (s', n)) : s'.TableOk := by
  obtain ⟨⟨hcfg, -⟩, -, -, -, hui, -⟩ := bodyOf_frame h
  cases i
  case uiClear =>
    obtain ⟨rfl, -⟩ := uiClearBody_ok h
    exact ⟨List.nodup_nil, Nat.zero_le _⟩
  case uiInsert => exact tableOk_of_uiInsert ht h
  case uiRemove aid =>
    obtain ⟨-, k, -, rfl⟩ := uiRemoveBody_ok h
    have hsub := List.eraseIdx_sublist s.ui k
    exact ⟨(hsub.map UiEntry.aid).nodup ht.1, le_trans hsub.length_le ht.2⟩
  case trgDecode =>
    obtain ⟨ty, -, -, -, -, -, hcap, hnodup, rfl⟩ := trgDecodeBody_ok h
    exact ⟨hnodup, by simpa [State.uiCount] using hcap⟩
  all_goals
    rw [State.TableOk, State.uiCount, hcfg, hui (by simp) (by simp) (by simp) (by simp)]
    exact ht

/-- The four role rows give the two valid patterns, and 0 for the roles they leave invalid (R160). -/
theorem resolveOk_resolve (s : State) (h : Hdr) : State.ResolveOk { s with res := resolve h } := by
  unfold State.ResolveOk resolve
  split <;> simp

theorem resolveOk_of_bodyOf (hr : s.ResolveOk) (h : bodyOf i s = .ok (s', n)) : s'.ResolveOk := by
  by_cases hi : i = .addrResolve
  · subst hi
    obtain ⟨-, -, rfl, -⟩ := addrResolveBody_ok h
    exact resolveOk_resolve s s.hdr
  · obtain ⟨-, -, hres, -⟩ := bodyOf_frame h
    rw [State.ResolveOk, hres hi]
    exact hr

/-- UI_POS is written 0 or with a position of the table (R183, R190, R192). -/
theorem uiPos_lt_of_bodyOf (hn : s.ui.length ≤ 255) (hp : s.uiPos.toNat < 255) (h : bodyOf i s = .ok (s', n)) :
    s'.uiPos.toNat < 255 := by
  obtain ⟨-, -, -, -, -, -, hpos, -⟩ := bodyOf_frame h
  have hposition {k : Nat} (hk : k < s.ui.length) : (BitVec.ofNat 8 k).toNat < 255 := by
    rw [BitVec.toNat_ofNat]
    omega
  cases i
  case uiClear =>
    obtain ⟨rfl, -⟩ := uiClearBody_ok h
    exact Nat.zero_lt_succ _
  case uiLookup aid =>
    obtain ⟨-, e, he, -, rfl⟩ := uiLookupBody_ok h
    exact hposition (serialPos_lt he)
  case uiRead pos =>
    obtain ⟨-, e, he, rfl⟩ := uiReadBody_ok h
    obtain ⟨hk, -⟩ := List.getElem?_eq_some_iff.1 he
    exact hposition (by rwa [length_serial] at hk)
  all_goals
    rw [hpos (by simp) (by simp) (by simp)]
    exact hp

/-- No command reports more than the largest Trigger body (R202). -/
theorem length_le_of_bodyOf (hn : s.ui.length ≤ 255) (hcap : s.cfg.uiCap ≤ 255) (h : bodyOf i s = .ok (s', n)) :
    n ≤ 1794 := by
  have hhdr (fc : Half) : hdrSize fc ≤ 1794 := le_trans (hdrSize_le fc) (by decide)
  cases i with
  | nop => obtain ⟨-, rfl⟩ := nopBody_ok h; exact Nat.zero_le _
  | hdrSize => obtain ⟨-, -, rfl⟩ := hdrSizeBody_ok h; exact hhdr _
  | hdrEncode => obtain ⟨-, -, -, rfl⟩ := hdrEncodeBody_ok h; exact hhdr _
  | hdrDecode => obtain ⟨-, -, -, rfl, -⟩ := hdrDecodeBody_ok h; exact hhdr _
  | addrResolve => obtain ⟨-, -, -, rfl⟩ := addrResolveBody_ok h; exact Nat.zero_le _
  | hdrClear => obtain ⟨-, rfl⟩ := hdrClearBody_ok h; exact Nat.zero_le _
  | uiClear => obtain ⟨-, rfl⟩ := uiClearBody_ok h; exact Nat.zero_le _
  | uiInsert => obtain ⟨rfl, -⟩ := uiInsertBody_ok h; exact Nat.zero_le _
  | uiRemove aid => obtain ⟨rfl, -⟩ := uiRemoveBody_ok h; exact Nat.zero_le _
  | uiLookup aid => obtain ⟨rfl, -⟩ := uiLookupBody_ok h; exact Nat.zero_le _
  | uiRead pos => obtain ⟨rfl, -⟩ := uiReadBody_ok h; exact Nat.zero_le _
  | trgSize => obtain ⟨ty, -, -, rfl⟩ := trgSizeBody_ok h; exact trgSizeOf_le ty hn
  | trgEncode => obtain ⟨ty, -, rfl, -, -⟩ := trgEncodeBody_ok h; exact trgSizeOf_le ty hn
  | trgDecode =>
    obtain ⟨ty, -, -, -, rfl, -, husers, -, -⟩ := trgDecodeBody_ok h
    exact trgSizeOf_le ty (le_trans husers hcap)

end

/-! ### A command in each of its three ways to end -/

theorem inv_refused {s : State} (h : s.Inv) (opc : BitVec 8) :
    State.Inv { s with err := 8, lastOpc := opc, resultLen := 0 } := by
  obtain ⟨hcfg, hmem, htable, ⟨-, hcause, hlatch, -, -⟩, hres, hpos, -⟩ := h
  have herr : (8 : BitVec 4).toNat ≤ 10 := by decide
  exact ⟨hcfg, hmem, htable, ⟨herr, hcause, hlatch, by simp, fun _ => ⟨.inr rfl, rfl⟩⟩,
    hres, hpos, Nat.zero_le _⟩

theorem inv_raise {s : State} (h : s.Inv) (hf : s.fatal = false) (r : Raise) : (raise r s).Inv := by
  obtain ⟨hcfg, hmem, htable, ⟨-, hcause, hlatch, -, -⟩, hres, hpos, -⟩ := h
  rw [raise_eq]
  refine ⟨hcfg, hmem, htable, ?_, hres, hpos, Nat.zero_le _⟩
  simp only [State.StatusOk, raise_err, raise_fatal, raise_fcause]
  cases r with
  | fatal c => cases c <;> simp [Raise.code, Raise.cause, FatalCause.code]
  | _ => simp_all [Raise.code, Raise.cause]

/-- A body that completes carries the invariant over, and completing writes ERR OK and a length it may report. -/
theorem inv_complete {i : Instr} {s s' : State} {n : Nat} (h : s.Inv) (hf : s.fatal = false)
    (hok : bodyOf i s = .ok (s', n)) : (complete n s').Inv := by
  obtain ⟨hwf, hmem, htable, ⟨-, hcause, hlatch, -, -⟩, hres, hpos, -⟩ := h
  have hcap : s.cfg.uiCap ≤ 255 := hwf.2.1.2
  have hcount : s.ui.length ≤ 255 := le_trans htable.2 hcap
  have hn : n ≤ 1794 := length_le_of_bodyOf hcount hcap hok
  obtain ⟨⟨hcfg, -, hfatal, hfcause, -⟩, -⟩ := bodyOf_frame hok
  have hzero : s'.fcause = 0 := by rw [hfcause]; simpa [hf] using hlatch
  have hstatus : (complete n s').StatusOk := by simp [State.StatusOk, hfatal, hf, hzero]
  have hmem' : s'.MemoryOk := memoryOk_of_bodyOf hmem hok
  have htable' : s'.TableOk := tableOk_of_bodyOf htable hok
  have hres' : s'.ResolveOk := resolveOk_of_bodyOf hres hok
  have hpos' : s'.uiPos.toNat < 255 := uiPos_lt_of_bodyOf hcount hpos hok
  have hlen : (BitVec.ofNat 13 n).toNat ≤ 1794 := le_trans (Nat.mod_le _ _) hn
  refine ⟨?_, hmem', htable', hstatus, hres', hpos', hlen⟩
  rw [complete_cfg, hcfg]
  exact hwf

theorem inv_runCommand {s : State} (h : s.Inv) (i : Instr) (opc : BitVec 8) : (runCommand opc (bodyOf i) s).Inv := by
  rcases runCommand_cases opc (bodyOf i) s with
    ⟨-, hrun⟩ | ⟨s', n, hf, hok, hrun⟩ | ⟨r, hf, -, hrun⟩ <;> rw [hrun]
  · exact inv_refused h opc
  · exact inv_complete (s := s.withLastOpc opc) h hf hok
  · exact inv_raise (s := s.withLastOpc opc) h hf r

theorem inv_illegalCommand {s : State} (h : s.Inv) (w : Word) : (illegalCommand w s).Inv := by
  rw [illegalCommand]
  rcases runCommand_cases (cmdOpc w) (fun _ => .error .badCmd) s with
    ⟨-, hrun⟩ | ⟨s', n, -, hok, -⟩ | ⟨r, hf, -, hrun⟩
  · rw [hrun]
    exact inv_refused h _
  · cases hok
  · rw [hrun]
    exact inv_raise (s := s.withLastOpc (cmdOpc w)) h hf r

/-- The host's event keeps the invariant, and so does the command it starts. -/
theorem inv_step {s t : State} (h : s.Inv) (hstep : step s = .next t) : t.Inv := by
  rcases step_cases hstep with hu | ⟨w, u, i, hu, -, rfl⟩ | ⟨w, u, e, hu, -, rfl⟩
  · exact inv_serveHost h (congrArg Served.state? hu)
  · exact inv_runCommand (inv_serveHost h (congrArg Served.state? hu)) i _
  · exact inv_illegalCommand (inv_serveHost h (congrArg Served.state? hu)) w

/-! ### The obligations -/

/-- Settles O19: the reference build's words by evaluation, every other register a field that is 0. -/
theorem registersAtTheResetState : Obligations.RegistersAtTheResetState := by
  intro r
  cases r <;> rfl

/-- Settles O20: the reference build is a legal one. -/
theorem resetStateMeetsTheInvariant : Obligations.ResetStateMeetsTheInvariant :=
  ⟨inv_resetOf wellFormed_reference 0, fun _ epoch hp => inv_resetOf hp epoch⟩

/-- Settles O21, by the host's event and then the command in each of its ways to end. -/
theorem everyStepKeepsTheInvariant : Obligations.EveryStepKeepsTheInvariant :=
  fun _ _ => inv_step

end Sys2Proof.Machine
end

section
/-! SUPPORT. The decoders' checks in their order, and the UserInfo table and its records across two commands, with the obligations settled from them (spec 40_header_codec.md R145, 41_trigger_codec.md R184 to R205). -/

namespace Sys2Proof.Machine

/-! ### TRG_DECODE, check by check (R200, R201, R228) -/

theorem trgDecodeBody_of_bounds {s : State} (h : s.cfg.bufSize < s.bufOff.toNat + s.inLen.toNat) :
    trgDecodeBody s = .error .bounds := by
  simp [trgDecodeBody, h]

section
variable {s : State} {ty : TrgType} (hin : s.bufOff.toNat + s.inLen.toNat ≤ s.cfg.bufSize)
include hin

theorem trgDecodeBody_of_noUsers (h : s.inLen.toNat < 9) : trgDecodeBody s = .error .short := by
  simp [trgDecodeBody, Nat.not_lt.2 hin, h]

variable (h9 : 9 ≤ s.inLen.toNat)
include h9

theorem trgDecodeBody_of_noType (hty : TrgType.ofSelector (ciSelector s.wireCi) = none) :
    trgDecodeBody s = .error .unknown := by
  simp [trgDecodeBody, Nat.not_lt.2 hin, Nat.not_lt.2 h9, hty]

variable (hty : TrgType.ofSelector (ciSelector s.wireCi) = some ty)
include hty

theorem trgDecodeBody_of_short (h : s.inLen.toNat < trgSizeOf ty s.wireUsers) : trgDecodeBody s = .error .short := by
  simp [trgDecodeBody, Nat.not_lt.2 hin, Nat.not_lt.2 h9, hty, h]

theorem trgDecodeBody_of_capacity (hs : trgSizeOf ty s.wireUsers ≤ s.inLen.toNat) (h : s.cfg.uiCap < s.wireUsers) :
    trgDecodeBody s = .error .capacity := by
  simp [trgDecodeBody, Nat.not_lt.2 hin, Nat.not_lt.2 h9, hty, Nat.not_lt.2 hs, h]

theorem trgDecodeBody_of_count (hs : trgSizeOf ty s.wireUsers ≤ s.inLen.toNat) (hcap : s.wireUsers ≤ s.cfg.uiCap)
    (h : ¬ ((s.wireRecords ty s.wireUsers).map UiEntry.aid).Nodup) : trgDecodeBody s = .error .count := by
  rw [trgDecodeBody, if_neg (Nat.not_lt.2 hin), if_neg (Nat.not_lt.2 h9), hty]
  simp only [if_neg (Nat.not_lt.2 hs), if_neg (Nat.not_lt.2 hcap), if_neg h]

end

/-- A command that raises an outcome without a cause writes ERR, LAST_OPC and RESULT_LEN alone (R222, R225). -/
theorem exec_of_raise (i : Instr) {s : State} {r : Raise} (hf : s.fatal = false) (hc : r.cause = none)
    (hb : bodyOf i (s.withLastOpc i.opc) = .error r) :
    exec i s = .next { s with err := r.code, lastOpc := i.opc, resultLen := 0 } := by
  rw [exec_of_error i hf hb, raise_of_cause_none hc]
  rfl

/-! ### The table across two commands (R68, R184) -/

/-- FindAID of the staged AID answers the same place once the staged entry stands there. -/
theorem findAid_set {l : List UiEntry} {e : UiEntry} {k : Nat} (h : findAid l e.aid = some k) :
    findAid (l.set k e) e.aid = some k := by
  have hmap (l : List UiEntry) : findAid l e.aid = (l.map UiEntry.aid).findIdx? (· == e.aid) := by
    rw [List.findIdx?_map]
    rfl
  rw [hmap, map_aid_set h, ← hmap, h]

/-- Where the staged entry stands already, UI_INSERT writes it over itself. -/
theorem uiInsertBody_of_present {s : State} {k : Nat} (hk : findAid s.ui s.staged.aid = some k)
    (he : s.ui[k]? = some s.staged) : uiInsertBody s = .ok (s, 0) := by
  obtain ⟨hlt, hget⟩ := List.getElem?_eq_some_iff.1 he
  have hset : s.ui.set k s.staged = s.ui := by rw [← hget, List.set_getElem_self]
  rw [uiInsertBody, hk]
  simp only [hset]

/-- A completed UI_INSERT leaves the staged entry where FindAID finds it. -/
theorem present_of_uiInsertBody_ok {s s' : State} {n : Nat} (h : uiInsertBody s = .ok (s', n)) :
    n = 0 ∧ ∃ k, findAid s'.ui s'.staged.aid = some k ∧ s'.ui[k]? = some s'.staged := by
  obtain ⟨rfl, ⟨k, hk, rfl⟩ | ⟨hnone, -, rfl⟩⟩ := uiInsertBody_ok h
  · obtain ⟨hlt, -⟩ := findAid_some hk
    exact ⟨rfl, k, findAid_set hk, List.getElem?_set_self hlt⟩
  · exact ⟨rfl, s.ui.length, findAid_split rfl (findAid_none.1 hnone), List.getElem?_concat_length⟩

/-- No AID of a table without duplicates stands twice, so removing its entry removes the AID. -/
theorem absent_of_remove {l r : List UiEntry} {e : UiEntry} (h : ((l ++ e :: r).map UiEntry.aid).Nodup) :
    ∀ x ∈ l ++ r, x.aid ≠ e.aid := by
  have hperm : ((e :: (l ++ r)).map UiEntry.aid).Nodup :=
    ((List.perm_middle.map UiEntry.aid).nodup_iff).1 h
  rw [List.map_cons, List.nodup_cons] at hperm
  exact fun x hx hxe => hperm.1 (hxe ▸ List.mem_map_of_mem hx)

/-! ### Records (R129) -/

/-- A word as its three parts: BARCTL, the Basic octet, URSVD (R128). -/
theorem append_extract_three (w : Word) :
    w.extractLsb' 16 16 ++ w.extractLsb' 8 8 ++ w.extractLsb' 0 8 = w := by
  have := w.isLt
  apply BitVec.eq_of_toNat_eq
  simp only [toNat_append_three, BitVec.extractLsb'_toNat, Nat.shiftRight_eq_div_pow]
  omega

/-- A mask put together from its three parts keeps or clears the parts of a word. -/
theorem and_append_three (w : Word) (a : BitVec 16) (b c : BitVec 8) :
    w &&& (a ++ b ++ c : BitVec (16 + 8 + 8))
      = (w.extractLsb' 16 16 &&& a) ++ (w.extractLsb' 8 8 &&& b) ++ (w.extractLsb' 0 8 &&& c) := by
  conv_lhs => rw [← append_extract_three w]
  exact BitVec.and_append.trans (congrArg (· ++ _) BitVec.and_append)

theorem parse_serialize_w0 (e : UiEntry) (t : TrgType) : (parse (serialize e t) t).w0 = e.w0 :=
  (parse_w0 _ t).trans (extract_serialize_common e t).1

theorem parse_serialize_w1 (e : UiEntry) (t : TrgType) :
    (parse (serialize e t) t).w1
      = (if t = .muBar then e.w1.extractLsb' 16 16 else 0) ++ (if t = .basic then e.w1.extractLsb' 8 8 else 0)
        ++ e.w1.extractLsb' 0 8 := by
  rw [parse_w1, (extract_serialize_common e t).2]
  cases t
  case basic => simp [extract_serialize_basic]
  case muBar => simp [extract_serialize_muBar]
  all_goals rfl

/-- The bits of W1 that a record of the variant carries (R129). -/
def TrgType.carried : TrgType → Word
  | .basic => 0x0000FFFF
  | .muBar => 0xFFFF00FF
  | .muRts => 0x000000FF
  | .bsrp => 0x000000FF

theorem parse_serialize_w1_mask (e : UiEntry) (t : TrgType) :
    (parse (serialize e t) t).w1 = e.w1 &&& t.carried := by
  have hall8 (x : BitVec 8) : x &&& 0xFF#8 = x := BitVec.and_allOnes
  have hall16 (x : BitVec 16) : x &&& 0xFFFF#16 = x := BitVec.and_allOnes
  have hmask := and_append_three e.w1
  rw [parse_serialize_w1]
  cases t with
  | basic => exact (by simp [hall8] : _ = _).trans (hmask 0 0xFF 0xFF).symm
  | muBar => exact (by simp [hall8, hall16] : _ = _).trans (hmask 0xFFFF 0 0xFF).symm
  | muRts => exact (by simp [hall8] : _ = _).trans (hmask 0 0 0xFF).symm
  | bsrp => exact (by simp [hall8] : _ = _).trans (hmask 0 0 0xFF).symm

/-! ### The body (R205) -/

/-- Under AID_ASC the order is strictly sorted, and two strictly sorted lists of one set of entries are one list. -/
theorem serial_of_perm {s : State} {l : List UiEntry} (ht : s.TableOk) (hl : l.Perm s.ui)
    (ho : s.cfg.uiOrder = .aidAsc) : State.serial { s with ui := l } = s.serial := by
  have ht' : State.TableOk { s with ui := l } :=
    ⟨((hl.map UiEntry.aid).nodup_iff).2 ht.1, le_of_eq_of_le hl.length_eq ht.2⟩
  have hperm : (State.serial { s with ui := l }).Perm s.serial :=
    (serialList_perm _ _).trans (hl.trans (serialList_perm _ _).symm)
  exact hperm.eq_of_pairwise (fun a b _ _ hab hba => absurd hba (Nat.lt_asymm hab)) (serial_aidAsc_strict ht' ho)
    (serial_aidAsc_strict ht ho)

/-! ### The obligations -/

/-- Settles O32: each check is reached where the ones before it pass. -/
theorem hdrDecodeRaisesInTheOrderOfItsChecks : Obligations.HdrDecodeRaisesInTheOrderOfItsChecks := by
  intro s hf
  have hfc := wireFc_withLastOpc s Instr.hdrDecode.opc
  rw [← hfc]
  refine ⟨fun hb => ?_, fun hin h2 => ?_, fun hin h2 hr => ?_, fun hin h2 hr hs h4 => ?_⟩
  · exact exec_of_raise .hdrDecode hf rfl (hdrDecodeBody_of_bounds (s := s.withLastOpc _) hb)
  · exact exec_of_raise .hdrDecode hf rfl (hdrDecodeBody_of_noFc (s := s.withLastOpc _) hin h2)
  · exact exec_of_raise .hdrDecode hf rfl (hdrDecodeBody_of_unrecognized (s := s.withLastOpc _) hin h2 hr)
  · exact exec_of_raise .hdrDecode hf rfl (hdrDecodeBody_of_short (s := s.withLastOpc _) hin h2 hr
      (fun h => absurd h.2 (Nat.not_lt.2 (h4 h.1))) hs)

/-- Settles O43: the second insertion finds the entry where the first one put it, or the table as full as before. -/
theorem uiInsertIsIdempotent : Obligations.UiInsertIsIdempotent := by
  intro s t hf h
  rcases exec_inService_cases hf h with ⟨s', n, hok, rfl⟩ | ⟨r, herr, rfl⟩
  · obtain ⟨rfl, k, hk, he⟩ := present_of_uiInsertBody_ok hok
    obtain ⟨⟨-, -, hfatal, -, hopc, -⟩, -⟩ := bodyOf_frame hok
    have hagain := exec_of_ok .uiInsert (s := complete 0 s') (hfatal.trans hf)
      (uiInsertBody_of_present (s := (complete 0 s').withLastOpc _) hk he)
    have hsame : complete 0 ((complete 0 s').withLastOpc Instr.uiInsert.opc) = complete 0 s' := by
      rw [withLastOpc_lastOpc] at hopc
      rw [← hopc]
      rfl
    exact hagain.trans (congrArg Host.Outcome.next hsame)
  · obtain ⟨rfl, habsent, hfull⟩ := uiInsertBody_error herr
    rw [raise_of_cause_none rfl]
    exact exec_of_raise .uiInsert hf rfl (uiInsertBody_of_full habsent hfull)

/-- Settles O45: the first removal takes the one entry with the AID, and the second one finds none. -/
theorem secondRemovalIsNotFound : Obligations.SecondRemovalIsNotFound := by
  rintro s _ hf ht ⟨e, he, rfl⟩
  obtain ⟨l, r, hs⟩ := List.append_of_mem he
  have hfirst := exec_of_ok (.uiRemove e.aid) hf (uiRemoveBody_of_split (s := s.withLastOpc _) ht hs)
  have habsent : ∀ x ∈ l ++ r, x.aid ≠ e.aid := absent_of_remove (hs ▸ ht.1)
  have hsecond (t : State) (hft : t.fatal = false) (hui : t.ui = l ++ r) :
      exec (.uiRemove e.aid) t = .next { t with err := 6, lastOpc := 0x12, resultLen := 0 } :=
    exec_of_raise (.uiRemove e.aid) hft rfl
      (uiRemoveBody_of_absent (s := t.withLastOpc _) (by rwa [← hui] at habsent))
  exact ⟨_, hfirst, rfl, by simp [hs, Nat.add_assoc], hsecond _ hf rfl⟩

/-- Settles O49: W0 whole, and W1 in its three parts. -/
theorem parseOfSerializeKeepsTheCarriedBits : Obligations.ParseOfSerializeKeepsTheCarriedBits := by
  intro e t
  have h := congrArg₂ UiEntry.mk (parse_serialize_w1_mask e t) (parse_serialize_w0 e t)
  cases t <;> exact h

/-- Settles O52: the table is not written by the encoder, so UI_READ stages the entry whose record stands in FBUF. -/
theorem uiReadYieldsTheEncodedRecords : Obligations.UiReadYieldsTheEncodedRecords := by
  intro s t ty k hf hty hrun herr hk
  obtain ⟨ty', hty', rfl⟩ := exec_trgEncode_err_zero hrun herr
  cases hty.symm.trans hty'
  have hk' : k.toNat < s.serial.length := (length_serial s).symm ▸ hk
  have he : s.serial[k.toNat]? = some s.serial[k.toNat] := List.getElem?_eq_getElem hk'
  refine ⟨_, exec_of_ok (.uiRead k) hf (uiReadBody_of_some (s := (s.trgEncoded ty).withLastOpc _) he), rfl, ?_⟩
  exact ((holdsTrg_trgEncoded s ty).records k.toNat _ he).symm

/-- Settles O53: the checks pass, records with different low 12 bits being records with different AIDs. -/
theorem trgDecodeReadsTheBody : Obligations.TrgDecodeReadsTheBody := by
  rintro s ty m hf hin hty rfl hs hcap haids
  rw [← wireUsers_eq_octet] at hs hcap haids ⊢
  have hnodup : ((s.wireRecords ty s.wireUsers).map UiEntry.aid).Nodup :=
    nodup_wireRecords.2 fun j k hjk hk he => haids j k hjk hk (by
      rw [← toNat_aid_parse _ ty, ← toNat_aid_parse _ ty, he])
  have hsel : TrgType.ofSelector (ciSelector s.wireCi) = some ty := by rwa [State.wireCi, ciSelector_ofNat]
  exact ⟨s.wireRecords ty s.wireUsers, exec_trgDecode_of_fits hf hin hsel hs hcap hnodup, length_wireRecords _ _ _,
    fun k => getElem?_wireRecords s ty⟩

/-- Settles O54: each check is reached where the ones before it pass. -/
theorem trgDecodeRaisesInTheOrderOfItsChecks : Obligations.TrgDecodeRaisesInTheOrderOfItsChecks := by
  intro s hf
  rw [← wireCi_withLastOpc s Instr.trgDecode.opc, ← wireUsers_withLastOpc s Instr.trgDecode.opc]
  refine ⟨fun hb => ?_, fun hin h9 => ?_, fun hin h9 hty => ?_, fun ty hin h9 hty =>
    ⟨fun hs => ?_, fun hs hcap => ?_, fun hs hcap hdup => ?_⟩⟩
  · exact exec_of_raise .trgDecode hf rfl (trgDecodeBody_of_bounds (s := s.withLastOpc _) hb)
  · exact exec_of_raise .trgDecode hf rfl (trgDecodeBody_of_noUsers (s := s.withLastOpc _) hin h9)
  · exact exec_of_raise .trgDecode hf rfl (trgDecodeBody_of_noType (s := s.withLastOpc _) hin h9 hty)
  · exact exec_of_raise .trgDecode hf rfl (trgDecodeBody_of_short (s := s.withLastOpc _) hin h9 hty hs)
  · exact exec_of_raise .trgDecode hf rfl (trgDecodeBody_of_capacity (s := s.withLastOpc _) hin h9 hty hs hcap)
  · obtain ⟨j, k, hjk, hk, he⟩ := hdup
    have hcount : ¬ (((s.withLastOpc Instr.trgDecode.opc).wireRecords ty
        (s.withLastOpc Instr.trgDecode.opc).wireUsers).map UiEntry.aid).Nodup := by
      rw [wireRecords_withLastOpc, nodup_wireRecords]
      exact fun h => h j k hjk hk he
    exact exec_of_raise .trgDecode hf rfl
      (trgDecodeBody_of_count (s := s.withLastOpc _) hin h9 hty hs hcap hcount)

/-- Settles O57: the length counts the entries, and under AID_ASC the serialization order is one list. -/
theorem bodyOfATableDoesNotDependOnItsOrder : Obligations.BodyOfATableDoesNotDependOnItsOrder := by
  intro s l ty ht hl
  refine ⟨?_, fun ho => ?_⟩
  · rw [length_trgBody, length_trgBody, State.uiCount, State.uiCount, hl.length_eq]
  · rw [State.trgBody, State.trgBody, serial_of_perm ht hl ho, State.uiCount, State.uiCount, hl.length_eq]

end Sys2Proof.Machine
end

section
/-! SUPPORT. The subfields a packing line fills, and the obligations about the host assembler settled from them (spec 30_encoding.md R133). -/

namespace Sys2Proof.Machine

/-! ### Subfields as numbers -/

theorem toNat_extract {n : Nat} (x : BitVec n) (i k : Nat) :
    (x.extractLsb' i k).toNat = x.toNat / 2 ^ i % 2 ^ k := by
  rw [BitVec.extractLsb'_toNat, Nat.shiftRight_eq_div_pow]

theorem toNat_getLsbD {n : Nat} (x : BitVec n) (i : Nat) : (x.getLsbD i).toNat = x.toNat / 2 ^ i % 2 :=
  Nat.toNat_testBit x.toNat i

/-! ### The packing lines (R133, R34, R35, R127) -/

/-- The datum of a SETSEQ line. -/
def seqWord (seq frag : Nat) : Word := BitVec.ofNat 32 (seq * 2 ^ 4 + frag)

/-- The datum of a SETQOS line. -/
def qosWord (tid eosp ackpol amsdu txop : Nat) : Word :=
  BitVec.ofNat 32 (txop * 2 ^ 8 + amsdu * 2 ^ 7 + ackpol * 2 ^ 5 + eosp * 2 ^ 4 + tid)

/-- The datum of a SETUI line. -/
def uiWord (aid ru coding mcs dcm ss : Nat) : Word :=
  BitVec.ofNat 32 (ss * 2 ^ 26 + dcm * 2 ^ 25 + mcs * 2 ^ 21 + coding * 2 ^ 20 + ru * 2 ^ 12 + aid)

theorem assemble_setSeq (seq frag : Nat) : assemble (.setSeq seq frag) =
    if seq < 4096 ∧ frag < 16 then some [⟨.write, 0x068#13, .w32, seqWord seq frag⟩] else none := by
  simp only [assemble, Bool.and_eq_true, fits_iff]
  rfl

theorem assemble_setQos (tid eosp ackpol amsdu txop : Nat) : assemble (.setQos tid eosp ackpol amsdu txop) =
    if tid < 16 ∧ eosp < 2 ∧ ackpol < 4 ∧ amsdu < 2 ∧ txop < 256 then
      some [⟨.write, 0x06C#13, .w32, qosWord tid eosp ackpol amsdu txop⟩] else none := by
  simp only [assemble, Bool.and_eq_true, fits_iff, and_assoc]
  rfl

theorem assemble_setUi (aid ru coding mcs dcm ss : Nat) : assemble (.setUi aid ru coding mcs dcm ss) =
    if aid < 4096 ∧ ru < 256 ∧ coding < 2 ∧ mcs < 16 ∧ dcm < 2 ∧ ss < 64 then
      some [⟨.write, 0x110#13, .w32, uiWord aid ru coding mcs dcm ss⟩] else none := by
  simp only [assemble, Bool.and_eq_true, fits_iff, and_assoc]
  rfl

theorem subfields_seqWord {seq frag : Nat} (h : seq < 4096 ∧ frag < 16) :
    (seqNumber ((seqWord seq frag).extractLsb' 0 16)).toNat = seq
      ∧ (seqFrag ((seqWord seq frag).extractLsb' 0 16)).toNat = frag := by
  simp only [seqWord, seqNumber, seqFrag, toNat_extract, BitVec.toNat_ofNat]
  omega

theorem subfields_qosWord {tid eosp ackpol amsdu txop : Nat} {q : Half}
    (h : tid < 16 ∧ eosp < 2 ∧ ackpol < 4 ∧ amsdu < 2 ∧ txop < 256)
    (hq : q = (qosWord tid eosp ackpol amsdu txop).extractLsb' 0 16) :
    (qosTid q).toNat = tid ∧ (qosEosp q).toNat = eosp ∧ (qosAckPol q).toNat = ackpol
      ∧ (qosAmsdu q).toNat = amsdu ∧ (qosTxop q).toNat = txop := by
  subst hq
  simp only [qosWord, qosTid, qosEosp, qosAckPol, qosAmsdu, qosTxop, toNat_extract, toNat_getLsbD,
    BitVec.toNat_ofNat]
  omega

theorem subfields_uiWord {aid ru coding mcs dcm ss : Nat} {e : UiEntry}
    (h : aid < 4096 ∧ ru < 256 ∧ coding < 2 ∧ mcs < 16 ∧ dcm < 2 ∧ ss < 64)
    (he : e.w0 = uiWord aid ru coding mcs dcm ss) :
    e.aid.toNat = aid ∧ e.ru.toNat = ru ∧ e.coding.toNat = coding ∧ e.mcs.toNat = mcs ∧ e.dcm.toNat = dcm
      ∧ e.ss.toNat = ss := by
  simp only [UiEntry.aid, UiEntry.ru, UiEntry.coding, UiEntry.mcs, UiEntry.dcm, UiEntry.ss, he, uiWord,
    toNat_extract, toNat_getLsbD, BitVec.toNat_ofNat]
  omega

/-! ### The obligations -/

/-- Settles O59: the number a CMD line packs is the command's word. -/
theorem cmdLinesWriteTheCommandWord : Obligations.CmdLinesWriteTheCommandWord := by
  have hword (i : Instr) : asmWr .cmd (i.arg.toNat * 2 ^ 16 + i.mnemonic.opc.toNat)
      = ⟨.write, 0x010#13, .w32, encode i⟩ :=
    congrArg (Access.mk .write 0x010#13 .w32) (ofNat_packed i.opc i.arg)
  refine ⟨fun i => ?_, fun i harg => ?_⟩
  · rw [assemble, if_pos ((fits_iff 16 _).2 i.arg.isLt), hword]
  · have h := hword i
    rw [harg] at h
    simpa [assemble] using h

/-- Settles O60: a line whose operands fit packs them apart, and the checks are exactly those bounds. -/
theorem packingLinesFillTheSubfields : Obligations.PackingLinesFillTheSubfields := by
  refine ⟨fun seq frag => ?_, fun tid eosp ack amsdu txop => ?_, fun aid ru coding mcs dcm ss => ?_⟩
  · rw [assemble_setSeq]
    exact ⟨fun h => ⟨_, if_pos h, subfields_seqWord h⟩, fun h => if_neg h⟩
  · rw [assemble_setQos]
    exact ⟨fun h => ⟨_, if_pos h, subfields_qosWord h rfl⟩, fun h => if_neg h⟩
  · rw [assemble_setUi]
    exact ⟨fun h => ⟨_, if_pos h, subfields_uiWord h rfl⟩, fun h => if_neg h⟩

end Sys2Proof.Machine
end
